-- ==== Sys2Proof/Word.lean ====
section
/-! DEFINITION. The types of the values the core moves: bytes, 32-bit words, the 10-bit command word,
the 64-bit length, and the fixed-size groups of words of 00_scope.md rule R5. Nothing is signed (R6). -/

namespace Sys2Proof

/-- A byte, an unsigned value in 0..255 (R6). -/
abbrev Byte := BitVec 8

/-- A word, an unsigned value in 0..2^32-1 (R6). The word addition of R8 is `+` of `BitVec 32`, which
reduces modulo 2^32; `and`, `xor` and `not` of R9 are `&&&`, `^^^` and `~~~`. -/
abbrev Word := BitVec 32

/-- A command word `cmd[9:0]` (R60). -/
abbrev CmdWord := BitVec 10

/-- The message length in bits, 64 bits wide (R22). -/
abbrev Length := BitVec 64

/-- Eight words: the hash state `H[0..7]` and the table `H0[0..7]` (R20, R112). -/
abbrev HashWords := Vector Word 8

/-- A parsed block `M[0..15]`: exactly sixteen 32-bit words (R100, R104, R194). -/
abbrev Block := Vector Word 16

/-- The message schedule `W[0..63]`, and the table `K[0..63]` (R31, R113). -/
abbrev Schedule := Vector Word 64

end Sys2Proof
end

