-- ==== Sys2Proof/Syntax.lean ====
section
/-! DEFINITION. The commands of the core: one constructor for each row of spec/opcode_table.json. -/

namespace Sys2Proof

/-- A decoded command (30_encoding.md R61). The bits a command ignores are kept as an operand that no
meaning reads, so that each of the 1024 legal words (R64) is exactly one term (DESIGN CHOICE, log 15, safe). -/
inductive Instr where
  /-- `INIT`, op 0b00; `arg` is ignored (R161). -/
  | init (arg : BitVec 8)
  /-- `ABSORB d`, op 0b01; `d` is one message byte (R162). -/
  | absorb (d : Byte)
  /-- `FINALIZE`, op 0b10; `arg` is ignored (R166). -/
  | finalize (arg : BitVec 8)
  /-- `READ k`, op 0b11; `k = arg[2:0]` selects the word, `argHi = arg[7:3]` is ignored (R172). -/
  | read (argHi : BitVec 5) (k : BitVec 3)
deriving DecidableEq, Repr

end Sys2Proof
end

