-- ==== Sys2Proof/WellFormed.lean ====
section
/-! DEFINITION. The checks on forms whose types are wider than the hardware's fields. A term of `Instr`
needs none: its operands have exactly the widths of the command word's fields and every value of each is
legal (30_encoding.md R63, R64). Checked are: a number offered as a command word, the canonical spelling of
R61, and an assembler line (R70, R71) whose numbers and characters are not yet bytes. -/

namespace Sys2Proof

/-- A number is a command word when it has at most ten bits (R60). -/
def wfCommandNumber (w : Nat) : Bool := decide (w < 1024)

/-- The canonical spelling of R61: every ignored bit is zero. Other spellings are legal and act alike (R64). -/
def Instr.canonical : Instr → Bool
  | .init arg => arg == 0
  | .absorb _ => true
  | .finalize arg => arg == 0
  | .read argHi _ => argHi == 0

/-- One line of a command sequence in the notation of R70, or a pseudo-command of R71, before its numbers
and characters are checked. -/
inductive AsmLine where
  | reset
  | init
  | absorb (byte : Nat)
  | finalize
  | read (index : Nat)
  | absorbs (text : List Char)
  | absorbN (byte count : Nat)
  | digest
  | hash (text : List Char)
deriving DecidableEq, Repr

/-- A character of a text message is one ASCII byte (R71; 92_eei_decisions.md D24; log 14). -/
def wfChar (c : Char) : Bool := decide (c.toNat < 128)

/-- A line is well-formed when its byte is written with two hexadecimal digits, its index is 0..7 and its
text is ASCII (R70, R71). -/
def AsmLine.wf : AsmLine → Bool
  | .reset | .init | .finalize | .digest => true
  | .absorb byte => decide (byte < 256)
  | .absorbN byte _ => decide (byte < 256)
  | .read index => decide (index < 8)
  | .absorbs text => text.all wfChar
  | .hash text => text.all wfChar

end Sys2Proof
end

