-- ==== Sys2Proof/Decode.lean ====
section
/-! DEFINITION. The decoder and the encoder of the 10-bit command word, from the one format of 30_encoding.md
R60 and the operation map R61. Every command word decodes to exactly one command (R64); a number of more than
ten bits is no command word and is rejected by name. -/

namespace Sys2Proof

/-- `op = cmd[9:8]` (R60, R160). -/
def cmdOp (w : CmdWord) : BitVec 2 := w.extractLsb' 8 2

/-- `arg = cmd[7:0]` (R60, R160). -/
def cmdArg (w : CmdWord) : BitVec 8 := w.extractLsb' 0 8

/-- `arg[7:3]`, the bits READ ignores (R61, R63). -/
def argHighFive (arg : BitVec 8) : BitVec 5 := arg.extractLsb' 3 5

/-- `k = arg[2:0]`, READ's word index (R61, R63). -/
def argLowThree (arg : BitVec 8) : BitVec 3 := arg.extractLsb' 0 3

/-- The command a command word stands for (R61, R64). All four values of `op` are assigned. -/
def decode (w : CmdWord) : Instr :=
  match (cmdOp w).toFin with
  | 0 => .init (cmdArg w)
  | 1 => .absorb (cmdArg w)
  | 2 => .finalize (cmdArg w)
  | 3 => .read (argHighFive (cmdArg w)) (argLowThree (cmdArg w))

/-- Why a number is refused as a command word. -/
inductive DecodeRefusal where
  /-- It has more than the ten bits of R60. -/
  | moreThanTenBits
deriving DecidableEq, Repr

/-- The decoder on a number: total, and it rejects by name what is no command word (R60). -/
def decodeNumber (w : Nat) : Except DecodeRefusal Instr :=
  if wfCommandNumber w then .ok (decode (BitVec.ofNat 10 w)) else .error .moreThanTenBits

/-- The command the decoder reads from a table row's bits: `w` without the bits above `nbits`, as one
number with bit 0 the least significant, as opcode_table.json numbers them (log 3). -/
def decodeTableWord (nbits w : Nat) : Option Instr :=
  match decodeNumber (w % 2 ^ nbits) with
  | .ok i => some i
  | .error _ => none

/-- The command word of a command: `op` above `arg` (R60, R61). -/
def encode : Instr → CmdWord
  | .init arg => 0b00#2 ++ arg
  | .absorb d => 0b01#2 ++ d
  | .finalize arg => 0b10#2 ++ arg
  | .read argHi k => 0b11#2 ++ (argHi ++ k)

/-- The mnemonic of the command's row in opcode_table.json. -/
def Instr.mnemonic : Instr → String
  | .init _ => "INIT"
  | .absorb _ => "ABSORB"
  | .finalize _ => "FINALIZE"
  | .read _ _ => "READ"

/-- One row of opcode_table.json: a word belongs to the row when its masked bits are the pattern. -/
structure OpcodeRow where
  mnemonic : String
  mask : CmdWord
  pattern : CmdWord
deriving DecidableEq, Repr

/-- The word's masked bits are the row's pattern. -/
def OpcodeRow.covers (r : OpcodeRow) (w : CmdWord) : Bool := w &&& r.mask == r.pattern

/-- The rows of opcode_table.json, in its order. -/
def opcodeTable : List OpcodeRow :=
  [⟨"INIT", 0x300, 0x000⟩, ⟨"ABSORB", 0x300, 0x100⟩, ⟨"FINALIZE", 0x300, 0x200⟩, ⟨"READ", 0x300, 0x300⟩]

end Sys2Proof
end

