-- ==== Sys2Proof/Machine/Bits.lean ====
section
/-! DEFINITION. The word operations and the bit sequences of 00_scope.md R6, R7 and R9. -/

namespace Sys2Proof.Machine

/-- `rotr(x, n)`: rotates the word's bits circularly right by n, for 0 < n < 32 and no other amount (R9;
93_implementation_defined.md U3; log 9). -/
def rotr (x : Word) (n : Nat) (_inRange : 0 < n ∧ n < 32 := by decide) : Word :=
  (x >>> n) ||| (x <<< (32 - n))

/-- `shr(x, n)`: shifts logically right by n, filling with zero bits, for 0 < n < 32 (R9; U3; log 9). -/
def shr (x : Word) (n : Nat) (_inRange : 0 < n ∧ n < 32 := by decide) : Word :=
  x >>> n

/-- `be_N(v)`: the N bits of `v` with the most significant first (R7). -/
def beBits (N v : Nat) : List Bool := (List.range N).map fun i => v.testBit (N - 1 - i)

/-- `val(s)`: the value of a bit sequence read most significant bit first (R7). -/
def val (s : List Bool) : Nat := s.foldl (fun acc b => 2 * acc + b.toNat) 0

/-- `bits(m)`: the message reinterpreted big-endian bit by bit (R7). -/
def bitsOfBytes (m : List Byte) : List Bool := m.flatMap fun b => beBits 8 b.toNat

/-- Byte `i` of an n-byte value, the most significant byte being byte 0: `floor(v / 2^(8(n-1-i))) mod 256`
(R44). -/
def beByte (n v i : Nat) : Byte := BitVec.ofNat 8 (v / 2 ^ (8 * (n - 1 - i)))

/-- The n bytes of `v`, most significant first (R43, R84). -/
def beBytes (n v : Nat) : List Byte := (List.range n).map (beByte n v)

/-- The value of four bytes as a word, the first byte most significant (R42, R101). -/
def wordOfBytes (b0 b1 b2 b3 : Byte) : Word := b0 ++ b1 ++ b2 ++ b3

end Sys2Proof.Machine
end

