-- ==== Sys2Proof/Machine/Constants.lean ====
section
/-! DEFINITION. The two read-only tables of 42_constants.md (R110, R117): `H0` (R112) and `K` (R113), which
the core holds as literals (92_eei_decisions.md D15), and the primes of R115 that they derive from. Nothing
writes them, so they are no part of State (R34). -/

namespace Sys2Proof.Machine

/-- `initialHashValues()`: the table `H0[0..7]` (R112). -/
def initialHashValues : HashWords :=
  #v[0x6a09e667, 0xbb67ae85, 0x3c6ef372, 0xa54ff53a, 0x510e527f, 0x9b05688c, 0x1f83d9ab, 0x5be0cd19]

/-- A prime and the word of `K` that R111 derives from it. -/
structure DerivedConstant where
  prime : Nat
  word : Word
deriving DecidableEq, Repr

/-- Each word of `K` beside its prime: one row of the table of R113 a line, with the primes of R115, which are
in the same order. -/
def derivedConstants : List DerivedConstant :=
  [
    ⟨2, 0x428a2f98⟩, ⟨3, 0x71374491⟩, ⟨5, 0xb5c0fbcf⟩, ⟨7, 0xe9b5dba5⟩,
    ⟨11, 0x3956c25b⟩, ⟨13, 0x59f111f1⟩, ⟨17, 0x923f82a4⟩, ⟨19, 0xab1c5ed5⟩,
    ⟨23, 0xd807aa98⟩, ⟨29, 0x12835b01⟩, ⟨31, 0x243185be⟩, ⟨37, 0x550c7dc3⟩,
    ⟨41, 0x72be5d74⟩, ⟨43, 0x80deb1fe⟩, ⟨47, 0x9bdc06a7⟩, ⟨53, 0xc19bf174⟩] ++ [
    ⟨59, 0xe49b69c1⟩, ⟨61, 0xefbe4786⟩, ⟨67, 0x0fc19dc6⟩, ⟨71, 0x240ca1cc⟩,
    ⟨73, 0x2de92c6f⟩, ⟨79, 0x4a7484aa⟩, ⟨83, 0x5cb0a9dc⟩, ⟨89, 0x76f988da⟩,
    ⟨97, 0x983e5152⟩, ⟨101, 0xa831c66d⟩, ⟨103, 0xb00327c8⟩, ⟨107, 0xbf597fc7⟩,
    ⟨109, 0xc6e00bf3⟩, ⟨113, 0xd5a79147⟩, ⟨127, 0x06ca6351⟩, ⟨131, 0x14292967⟩] ++ [
    ⟨137, 0x27b70a85⟩, ⟨139, 0x2e1b2138⟩, ⟨149, 0x4d2c6dfc⟩, ⟨151, 0x53380d13⟩,
    ⟨157, 0x650a7354⟩, ⟨163, 0x766a0abb⟩, ⟨167, 0x81c2c92e⟩, ⟨173, 0x92722c85⟩,
    ⟨179, 0xa2bfe8a1⟩, ⟨181, 0xa81a664b⟩, ⟨191, 0xc24b8b70⟩, ⟨193, 0xc76c51a3⟩,
    ⟨197, 0xd192e819⟩, ⟨199, 0xd6990624⟩, ⟨211, 0xf40e3585⟩, ⟨223, 0x106aa070⟩] ++ [
    ⟨227, 0x19a4c116⟩, ⟨229, 0x1e376c08⟩, ⟨233, 0x2748774c⟩, ⟨239, 0x34b0bcb5⟩,
    ⟨241, 0x391c0cb3⟩, ⟨251, 0x4ed8aa4a⟩, ⟨257, 0x5b9cca4f⟩, ⟨263, 0x682e6ff3⟩,
    ⟨269, 0x748f82ee⟩, ⟨271, 0x78a5636f⟩, ⟨277, 0x84c87814⟩, ⟨281, 0x8cc70208⟩,
    ⟨283, 0x90befffa⟩, ⟨293, 0xa4506ceb⟩, ⟨307, 0xbef9a3f7⟩, ⟨311, 0xc67178f2⟩]

/-- `roundConstants()`: the table `K[0..63]`, the words of the rows above (R113). -/
def roundConstants : Schedule := ⟨(derivedConstants.map (·.word)).toArray, by decide⟩

/-- The first 64 primes in order, from which R111 derives the tables (R115). The core holds none of them
(R35); they stand here so that the derivation can be stated of the tables. -/
def derivationPrimes : List Nat := derivedConstants.map (·.prime)

/-- `r = isqrt(x)`, the greatest integer whose square is at most x (R111). -/
abbrev IsIntegerSquareRoot (x r : Nat) : Prop := r ^ 2 ≤ x ∧ x < (r + 1) ^ 2

/-- `r = icbrt(x)`, the greatest integer whose cube is at most x (R111). -/
abbrev IsIntegerCubeRoot (x r : Nat) : Prop := r ^ 3 ≤ x ∧ x < (r + 1) ^ 3

end Sys2Proof.Machine
end

