-- ==== Sys2Proof/Machine/Compressor.lean ====
section
/-! DEFINITION. The Compressor (44_compressor.md): the mixing functions of a round, one round, the 64 rounds
and the feed-forward. -/

namespace Sys2Proof.Machine

/-- Σ0 (R135). -/
def bigS0 (a : Word) : Word := rotr a 2 ^^^ rotr a 13 ^^^ rotr a 22

/-- Σ1 (R136). -/
def bigS1 (e : Word) : Word := rotr e 6 ^^^ rotr e 11 ^^^ rotr e 25

/-- Ch (R137). -/
def ch (e f g : Word) : Word := (e &&& f) ^^^ (~~~e &&& g)

/-- Maj (R138). -/
def maj (a b c : Word) : Word := (a &&& b) ^^^ (a &&& c) ^^^ (b &&& c)

/-- The working registers a..h: scratch of one block, never part of State (R30, R144). -/
structure Regs where
  a : Word
  b : Word
  c : Word
  d : Word
  e : Word
  f : Word
  g : Word
  h : Word
deriving DecidableEq, Repr

/-- The registers before round 0, in index order (R139). -/
def Regs.start (st : HashWords) : Regs :=
  ⟨st[0], st[1], st[2], st[3], st[4], st[5], st[6], st[7]⟩

/-- One round on the words `K[j]` and `W[j]`, as the simultaneous assignment of R140. -/
def oneRound (r : Regs) (kj wj : Word) : Regs :=
  let temp1 := r.h + bigS1 r.e + ch r.e r.f r.g + kj + wj
  let temp2 := bigS0 r.a + maj r.a r.b r.c
  ⟨temp1 + temp2, r.a, r.b, r.c, r.d + temp1, r.e, r.f, r.g⟩

/-- One round as D0's eight assignments one after another, in D0's order h, g, f, e, d, c, b, a (R140, R141).
No command uses it. -/
def oneRoundInOrder (r : Regs) (kj wj : Word) : Regs :=
  let temp1 := r.h + bigS1 r.e + ch r.e r.f r.g + kj + wj
  let temp2 := bigS0 r.a + maj r.a r.b r.c
  let r := { r with h := r.g }
  let r := { r with g := r.f }
  let r := { r with f := r.e }
  let r := { r with e := r.d + temp1 }
  let r := { r with d := r.c }
  let r := { r with c := r.b }
  let r := { r with b := r.a }
  { r with a := temp1 + temp2 }

/-- Rounds j = 0, 1, …, 63 in this order (R141). -/
def allRounds (k w : Schedule) (r : Regs) : Regs :=
  (List.finRange 64).foldl (fun r j => oneRound r k[j] w[j]) r

/-- The feed-forward: the pre-block state is added back, word by word (R142). -/
def feedForward (st : HashWords) (r : Regs) : HashWords :=
  #v[st[0] + r.a, st[1] + r.b, st[2] + r.c, st[3] + r.d, st[4] + r.e, st[5] + r.f, st[6] + r.g, st[7] + r.h]

/-- `compress(state, schedule, K)` (R143). -/
def compress (st : HashWords) (w k : Schedule) : HashWords :=
  feedForward st (allRounds k w (Regs.start st))

end Sys2Proof.Machine
end

