-- ==== Sys2Proof/Machine/State.lean ====
section
/-! DEFINITION. The state of the core as plain data (10_state.md R20 to R37), the host side of its interface
(log 1, log 2), the reasons a step can stop, and the state right after reset (R37). The scratch storage of
R30 to R32 is no state (R33, R35) and the constant tables are never written (R34), so neither stands here
(log 16). -/

namespace Sys2Proof.Machine

/-- `PHASE` (R26). The value 3, which no rule writes, is not representable (93_implementation_defined.md U2;
log 7). -/
inductive Phase where
  /-- 0: a message is open. -/
  | absorbing
  /-- 1: a digest is in `H`. -/
  | done
  /-- 2: `InputError` was raised for the open message. -/
  | error
deriving DecidableEq, Repr

/-- `ERRCODE` (R27, R191). The reserved value 3 is not representable (U2; log 7). -/
inductive ErrCode where
  /-- 0: no error. -/
  | noError
  /-- 1: the message's bit length cannot fit in the 64-bit length field (R193). -/
  | inputError
  /-- 2: assigned and never produced by a command (R194). The function `parse` answers it for an operand
  whose length is no multiple of 512 (R104). -/
  | internalInvariantViolation
deriving DecidableEq, Repr

/-- What the host presents to the core: a command word (R60) or a RESET between two commands
(R215; log 6). -/
inductive HostInput where
  | cmd (w : CmdWord)
  | reset
deriving DecidableEq, Repr

/-- The response of one command: `ok` and `data[31:0]`, 33 bits (R62). -/
structure Response where
  ok : Bool
  data : Word
deriving DecidableEq, Repr

/-- The block buffer `BUF` as (index, byte) pairs in the one canonical form of `Memory.wf` (R24, R40). -/
abbrev Memory := List Host.Cell

/-- The state between two steps. -/
structure State where
  /-- `H[0..7]`, the hash state (R20). -/
  h : HashWords
  /-- `LEN`, the number of message bits absorbed since the last RESET or INIT (R22). -/
  len : Length
  /-- `BUF[0..63]`, the block buffer (R24). -/
  buf : Memory
  /-- `PHASE` (R26). -/
  phase : Phase
  /-- `ERRCODE` (R27). -/
  errCode : ErrCode
  /-- The MODEL's field: the inputs the host presents from here on, oldest first, none accepted yet
  (R12, R50; DESIGN CHOICE, log 1). -/
  inbox : List HostInput
  /-- The MODEL's field: the response the last step gave, `none` when it was a RESET or an idle step
  (R62, R215; DESIGN CHOICE, log 2). -/
  resp : Option Response
deriving DecidableEq, Repr

/-- Why the machine stops with a fault. -/
inductive Fault where
  /-- D0's fatal assertion (R194). Raised by NOTHING: a block is sixteen words by its type and a command
  processes exactly 64 buffer bytes. Safe: a step that answered it would end the run (log 8). -/
  | internalInvariantViolation
deriving DecidableEq, Repr

/-- Why a command has no meaning in the model. -/
inductive Refusal where
  /-- Raised by an arm of `exec` whose command has no meaning yet; no arm is left that raises it. Safe: the
  run ends. -/
  | notModelled (mnemonic : String)
deriving DecidableEq, Repr

/-- The state after RESET (R37, R215): `H = H0`, `LEN = 0`, `PHASE = ABSORBING`, `ERRCODE = 0`. The contents
of `BUF` are unspecified there; nothing is listed, so every byte reads as 0x00 (DESIGN CHOICE, log 4,
unsafe). No input is pending and no response is given (DESIGN CHOICE, log 1, log 2). -/
def State.reset : State where
  h := initialHashValues
  len := 0
  buf := []
  phase := .absorbing
  errCode := .noError
  inbox := []
  resp := none

end Sys2Proof.Machine
end

