-- ==== Sys2Proof/Machine/Memory.lean ====
section
/-! DEFINITION. The block buffer's primitives (20_memory.md R44) over (index, byte) pairs in one canonical
form: indices strictly rising and below 64, and no entry equal to what an unlisted index reads as. -/

namespace Sys2Proof.Machine

/-- The buffer's size in bytes (R24, R40). -/
def Memory.size : Nat := 64

/-- What an unlisted index reads as. The spec leaves such a byte unspecified and never reads it, and allows
a model to take zero (R25; DESIGN CHOICE, log 4, unsafe). -/
def Memory.unlisted : Byte := 0x00

/-- The byte at an index: `BUF[a]`. -/
def Memory.read : Memory → Nat → Byte
  | [], _ => Memory.unlisted
  | (b, v) :: rest, a => if b = a then v else Memory.read rest a

/-- The buffer with no entry at an index, which then reads as unlisted. -/
def Memory.erase (m : Memory) (a : Nat) : Memory := m.filter fun cell => cell.1 != a

/-- The buffer with the entry (a, v), in its place by index. -/
def Memory.insert : Memory → Nat → Byte → Memory
  | [], a, v => [(a, v)]
  | (b, w) :: rest, a, v =>
    if a < b then (a, v) :: (b, w) :: rest
    else if a = b then (a, v) :: rest
    else (b, w) :: Memory.insert rest a v

/-- `BUF[a] <- v`, keeping the canonical form: what an unlisted index reads as is not listed. -/
def Memory.write (m : Memory) (a : Nat) (v : Byte) : Memory :=
  if v = Memory.unlisted then m.erase a else m.insert a v

/-- The canonical form of the entries at indices `lo` and above. -/
def Memory.wfFrom (lo : Nat) : Memory → Bool
  | [] => true
  | (a, v) :: rest =>
    decide (lo ≤ a) && decide (a < Memory.size) && decide (v ≠ Memory.unlisted) && Memory.wfFrom (a + 1) rest

/-- The canonical form of a whole buffer. -/
def Memory.wf (m : Memory) : Bool := Memory.wfFrom 0 m

/-- `MemRead(addr, n)`: the n-byte big-endian value at `addr` (R10, R44). -/
def memRead (m : Memory) (addr n : Nat) : Nat :=
  ((List.range n).map fun i => (m.read (addr + i)).toNat * 2 ^ (8 * (n - 1 - i))).sum

/-- `MemWrite(addr, n, v)`: the n bytes of `v` at `addr`, most significant byte at the lowest index
(R10, R44). -/
def memWrite (m : Memory) (addr n v : Nat) : Memory :=
  (List.range n).foldl (fun m i => m.write (addr + i) (beByte n v i)) m

/-- `MemWrite(i, 1, 0x00)` for `i = lo .. hi-1` in this order; nothing when `hi ≤ lo` (R167). -/
def zeroFill (m : Memory) (lo hi : Nat) : Memory :=
  (List.range' lo (hi - lo)).foldl (fun m i => memWrite m i 1 0x00) m

end Sys2Proof.Machine
end

