-- ==== Sys2Proof/Machine/Padder.lean ====
section
/-! DEFINITION. The Padder (40_padder.md). `pad` is D0's function on a whole message (R80 to R88); the second
part is what FINALIZE writes into the block buffer in its place (R89, R167). -/

namespace Sys2Proof.Machine

/-- `ℓ = 8n`, the message's length in bits (R80). -/
def bitLength (m : List Byte) : Nat := 8 * m.length

/-- The number k of `0` bits, `(447 - ℓ) mod 512` with a result in 0..511 (R81). -/
def padZeroBits (l : Nat) : Nat := (959 - l % 512) % 512

/-- The number z of `0x00` bytes, `(55 - n) mod 64` with a result in 0..63 (R83). -/
def padZeroBytes (n : Nat) : Nat := (119 - n % 64) % 64

/-- The padded bit sequence `bits(m) ‖ 1 ‖ 0^k ‖ be_64(ℓ)` (R80). -/
def paddedBits (m : List Byte) : List Bool :=
  bitsOfBytes m ++ true :: List.replicate (padZeroBits (bitLength m)) false ++ beBits 64 (bitLength m)

/-- The byte form `m ‖ 0x80 ‖ 0x00^z ‖ L[0..7]` (R83). -/
def paddedBytes (m : List Byte) : List Byte :=
  m ++ 0x80 :: List.replicate (padZeroBytes m.length) 0x00 ++ beBytes 8 (bitLength m)

/-- `pad(m)`: `InputError` when the bit length cannot be represented in 64 bits (R80, R87). -/
def pad (m : List Byte) : Except ErrCode (List Bool) :=
  if bitLength m < 2 ^ 64 then .ok (paddedBits m) else .error .inputError

/-- Steps 1 to 3 of R167 for r at most 55, with `r = CNT` and `ℓ = LEN`: the one last block. -/
def padLastBlock (buf : Memory) (r l : Nat) : Memory :=
  memWrite (zeroFill (memWrite buf r 1 0x80) (r + 1) 56) 56 8 l

/-- Steps 1 and 2 of R167 for r at least 56 up to its first ProcessBlock: the block before the last. -/
def padFirstOfTwo (buf : Memory) (r : Nat) : Memory :=
  zeroFill (memWrite buf r 1 0x80) (r + 1) 64

/-- Steps 2 (its end) and 3 of R167 for r at least 56: the last block of two. -/
def padSecondOfTwo (buf : Memory) (l : Nat) : Memory :=
  memWrite (zeroFill buf 0 56) 56 8 l

end Sys2Proof.Machine
end

