-- ==== Sys2Proof/Machine/Parser.lean ====
section
/-! DEFINITION. The Block Parser (41_block_parser.md): `parse` on a whole bit sequence (R100) and the fixed
view of the block buffer (R103). -/

namespace Sys2Proof.Machine

/-- `B_b = [M_b[0], …, M_b[15]]` with `M_b[t] = val(p(512b + 32t .. 512b + 32t + 32))` (R100). -/
def parseBlock (p : List Bool) (b : Nat) : Block :=
  Vector.ofFn fun t : Fin 16 => BitVec.ofNat 32 (val ((p.drop (512 * b + 32 * t.val)).take 32))

/-- `parse(p)` (R100). An operand whose length is no multiple of 512 is D0's fatal
`InternalInvariantViolation`, never silently corrected (R104, R194). -/
def parse (p : List Bool) : Except ErrCode (List Block) :=
  if p.length % 512 = 0 then .ok ((List.range (p.length / 512)).map (parseBlock p))
  else .error .internalInvariantViolation

/-- `M[t] = MemRead(4t, 4)` for `t = 0..15` (R103). -/
def bufferBlock (buf : Memory) : Block :=
  Vector.ofFn fun t : Fin 16 => BitVec.ofNat 32 (memRead buf (4 * t.val) 4)

end Sys2Proof.Machine
end

