-- ==== Sys2Proof/Machine/Scheduler.lean ====
section
/-! DEFINITION. The Message Scheduler (43_message_scheduler.md). -/

namespace Sys2Proof.Machine

/-- σ0 (R122). -/
def s0 (x : Word) : Word := rotr x 7 ^^^ rotr x 18 ^^^ shr x 3

/-- σ1 (R123). -/
def s1 (x : Word) : Word := rotr x 17 ^^^ rotr x 19 ^^^ shr x 10

/-- The schedule before the loop of R126: `W[0..15] = M`. The other words are written by the loop before
anything reads them (R128). -/
def scheduleStart (m : Block) : Schedule :=
  Vector.ofFn fun t : Fin 64 => if inBlock : t.val < 16 then m[t.val] else 0

/-- One pass of the loop of R126: `W[i] = W[i-16] + s0(W[i-15]) + W[i-7] + s1(W[i-2])` for i in 16..63. -/
def scheduleStep (w : Schedule) (i : Nat) : Schedule :=
  if inLoop : 16 ≤ i ∧ i < 64 then
    w.set i (w[i - 16] + s0 w[i - 15] + w[i - 7] + s1 w[i - 2])
  else w

/-- `expand(block)`: the 64 words of the schedule, i = 16, 17, …, 63 in this order (R126). -/
def expand (m : Block) : Schedule := (List.range' 16 48).foldl scheduleStep (scheduleStart m)

/-- One shift of the sixteen-word window of R128: `new = w[0] + s0(w[1]) + w[9] + s1(w[14])`, then
`w[t] <- w[t+1]` and `w[15] <- new`. An implementer's form (92_eei_decisions.md D16); no command uses it. -/
def shiftWindow (w : Block) : Block :=
  Vector.ofFn fun t : Fin 16 =>
    if inWindow : t.val < 15 then w[t.val + 1] else w[0] + s0 w[1] + w[9] + s1 w[14]

/-- The window after n shifts (R128). -/
def windowAfter (m : Block) : Nat → Block
  | 0 => m
  | n + 1 => shiftWindow (windowAfter m n)

end Sys2Proof.Machine
end

