-- ==== Sys2Proof/Machine/Digest.lean ====
section
/-! DEFINITION. The whole hash as D0's functions (44_compressor.md section 3): the chain over the blocks of a
padded message, and the hexadecimal presentation, which is no hardware (R4 (f), R150). -/

namespace Sys2Proof.Machine

/-- One link of the chain: `compress(S, expand(B), K)` (R146, R165). -/
def hashBlock (st : HashWords) (m : Block) : HashWords := compress st (expand m) roundConstants

/-- `S_N` from `S_0 = st` over the blocks in order (R146). -/
def hashBlocks (st : HashWords) (blocks : List Block) : HashWords := blocks.foldl hashBlock st

/-- `sha256_words(m)` (R146), with the errors of `pad` and `parse` passed on (R87, R104). -/
def sha256Words (m : List Byte) : Except ErrCode HashWords :=
  match pad m with
  | .error e => .error e
  | .ok p =>
    match parse p with
    | .error e => .error e
    | .ok blocks => .ok (hashBlocks initialHashValues blocks)

/-- The sixteen hexadecimal digits in order of value, lowercase (R69, R150; PRESUMED, log 14). -/
def hexDigits : Vector Char 16 :=
  #v['0', '1', '2', '3', '4', '5', '6', '7', '8', '9', 'a', 'b', 'c', 'd', 'e', 'f']

/-- The digit of a 4-bit value. -/
def hexDigit (v : BitVec 4) : Char := hexDigits[v.toNat]'v.isLt

/-- The eight digits of a word, most significant first, leading zeros kept (R69, R150). -/
def hexOfWord (w : Word) : List Char := (List.range 8).map fun i => hexDigit (w.extractLsb' (4 * (7 - i)) 4)

/-- The characters of `hex(S)` (R150). -/
def hexChars (st : HashWords) : List Char := st.toList.flatMap hexOfWord

/-- `sha256(message)`, the 64-character lowercase hexadecimal string (R151). -/
def sha256 (m : List Byte) : Except ErrCode String :=
  match sha256Words m with
  | .error e => .error e
  | .ok st => .ok (String.ofList (hexChars st))

end Sys2Proof.Machine
end

