-- ==== Sys2Proof/Machine/Flags.lean ====
section
/-! DEFINITION. The numeric codes of PHASE and ERRCODE (10_state.md R26, R27) and the STATUS output (R29). The
core has no condition codes. -/

namespace Sys2Proof.Machine

/-- The 2-bit value of PHASE (R26). -/
def Phase.code : Phase → BitVec 2
  | .absorbing => 0
  | .done => 1
  | .error => 2

/-- The 2-bit value of ERRCODE (R27, R191). -/
def ErrCode.code : ErrCode → BitVec 2
  | .noError => 0
  | .inputError => 1
  | .internalInvariantViolation => 2

/-- DIGEST_VALID: 1 iff PHASE = DONE (R29). -/
def State.digestValid (s : State) : Bool := s.phase == .done

/-- ERROR: 1 iff PHASE = ERROR (R29). -/
def State.errorFlag (s : State) : Bool := s.phase == .error

/-- `STATUS`: ERRCODE in bits 3:2, ERROR in bit 1, DIGEST_VALID in bit 0 (R29). The host may sample it
between any two steps, with no effect (R173; log 5). -/
def State.status (s : State) : BitVec 4 :=
  s.errCode.code ++ (BitVec.ofBool s.errorFlag ++ BitVec.ofBool s.digestValid)

end Sys2Proof.Machine
end

