-- ==== Sys2Proof/Machine/Operands.lean ====
section
/-! DEFINITION. Operand assembly (30_encoding.md R63) and the indices the core computes itself
(20_memory.md R41): `CNT`, the digest word READ selects, and the largest length. -/

namespace Sys2Proof.Machine

/-- `CNT = LEN[8:3]`, the number of bytes absorbed and not yet compressed, 0..63 (R23). -/
def State.cnt (s : State) : Nat := (s.len.extractLsb' 3 6).toNat

/-- `2^64 - 8`, the largest length in bits (R13, R22). -/
def maxLength : Length := 0xfffffffffffffff8

/-- `H[k]` for READ's 3-bit index; all eight values are valid (R41, R63). -/
def State.digestWord (s : State) (k : BitVec 3) : Word := s.h[k.toNat]'k.isLt

end Sys2Proof.Machine
end

