-- ==== Sys2Proof/Machine/Ops.lean ====
section
/-! DEFINITION. The operations over the state that the commands and the step share: answering, refusing,
raising `InputError` and the return from it, writing the block buffer, processing a block, taking an input. -/

namespace Sys2Proof.Machine

/-- `respond(ok, data)` (R10, R62). -/
def State.respond (s : State) (ok : Bool) (data : Word) : State := { s with resp := some ⟨ok, data⟩ }

/-- A command refused in this PHASE: no state changes, `ok = 0`, `data = 0` (R196). -/
def State.refuse (s : State) : State := s.respond false 0

/-- Taking the one exception of the core: `raise InputError` writes PHASE and ERRCODE and answers
`ok = 0`, `data = 0`, and does nothing more (R164, R193, R201). -/
def State.raiseInputError (s : State) : State :=
  { s with phase := .error, errCode := .inputError }.respond false 0

/-- The effect INIT and RESET share, which is also the one return from `InputError`: a new message from H0
with `LEN = 0` (R161, R202, R215). `BUF` is not written. -/
def State.openMessage (s : State) : State :=
  { s with h := initialHashValues, len := 0, phase := .absorbing, errCode := .noError }

/-- A RESET step (R215): no response. It leaves `BUF` unspecified; the model leaves nothing listed, as in
`State.reset` (DESIGN CHOICE, log 4, unsafe). -/
def State.takeReset (s : State) : State := { s.openMessage with buf := [], resp := none }

/-- A step with no input offered: the core is idle with its state held and gives no response (R210; DESIGN
CHOICE, log 2). -/
def State.idle (s : State) : State := { s with resp := none }

/-- `BUF` written to given contents. -/
def State.setBuf (s : State) (buf : Memory) : State := { s with buf := buf }

/-- `LEN <- l` (R163). -/
def State.setLen (s : State) (l : Length) : State := { s with len := l }

/-- `PHASE <- p` (R10, R168). -/
def State.setPhase (s : State) (p : Phase) : State := { s with phase := p }

/-- `MemWrite(addr, n, v)` on the block buffer (R44). -/
def State.bufWrite (s : State) (addr n v : Nat) : State := s.setBuf (memWrite s.buf addr n v)

/-- `ProcessBlock()`: parses `BUF[0..63]`, expands it and compresses it into `H`, and writes nothing else
(R165). -/
def State.processBlock (s : State) : State := { s with h := hashBlock s.h (bufferBlock s.buf) }

/-- The next input the host offers and the state without it (R50, R160). -/
def State.takeInput (s : State) : Option (HostInput × State) :=
  match s.inbox with
  | [] => none
  | input :: rest => some (input, { s with inbox := rest })

end Sys2Proof.Machine
end

