-- ==== Sys2Proof/Machine/Commands.lean ====
section
/-! DEFINITION. The meanings of the four commands (45_commands.md R161 to R172), one definition each. Each ends
in a next state for every state and operand (R160, R180): a refusal (R196) and `InputError` (R164) are
responses of the core, not stops of the model. -/

namespace Sys2Proof.Machine

/-- INIT, performed in every PHASE (R161). -/
def execInit (s : State) : Host.Outcome State Fault Refusal :=
  .next (s.openMessage.respond true 0)

/-- ABSORB performed, with `c = CNT` read at the start (R163). -/
def State.absorbByte (s : State) (d : Byte) : State :=
  let c := s.cnt
  let stored := (s.bufWrite c 1 d.toNat).setLen (s.len + 8)
  let processed := if c = 63 then stored.processBlock else stored
  processed.respond true 0

/-- ABSORB d: the cases of R162 in their order, with R162's own tests also where LEN is no multiple of 8, which
no run reaches (log 13). -/
def execAbsorb (d : Byte) (s : State) : Host.Outcome State Fault Refusal :=
  if s.phase ≠ .absorbing then .next s.refuse
  else if s.len = maxLength then .next s.raiseInputError
  else .next (s.absorbByte d)

/-- The padding of R167 with `r = CNT` and `ℓ = LEN` read at the start: one block when r is at most 55, else
two. -/
def State.padAndProcess (s : State) : State :=
  let r := s.cnt
  let l := s.len.toNat
  if r ≤ 55 then
    (s.setBuf (padLastBlock s.buf r l)).processBlock
  else
    let first := (s.setBuf (padFirstOfTwo s.buf r)).processBlock
    (first.setBuf (padSecondOfTwo first.buf l)).processBlock

/-- FINALIZE: refused outside ABSORBING (R166), else the padding of R167 and the completion of R168. -/
def execFinalize (s : State) : Host.Outcome State Fault Refusal :=
  if s.phase ≠ .absorbing then .next s.refuse
  else .next ((s.padAndProcess.setPhase .done).respond true 0)

/-- READ k: one word of the digest in DONE, refused otherwise (R172). -/
def execRead (k : BitVec 3) (s : State) : Host.Outcome State Fault Refusal :=
  if s.phase = .done then .next (s.respond true (s.digestWord k))
  else .next s.refuse

end Sys2Proof.Machine
end

