-- ==== Sys2Proof/Machine/Dispatch.lean ====
section
/-! DEFINITION. One arm for each constructor of `Instr` (45_commands.md R160). The bits a command ignores are
dropped here (30_encoding.md R64). -/

namespace Sys2Proof.Machine

def exec (i : Instr) (s : State) : Host.Outcome State Fault Refusal :=
  match i with
  | .init _ => Sys2Proof.Machine.execInit s
  | .absorb d => Sys2Proof.Machine.execAbsorb d s
  | .finalize _ => Sys2Proof.Machine.execFinalize s
  | .read _ k => Sys2Proof.Machine.execRead k s

end Sys2Proof.Machine
end

