-- ==== Sys2Proof/Machine/Step.lean ====
section
/-! DEFINITION. One step of the core (45_commands.md R160): it takes the next input the host offers, which is
a command word or a RESET (70_reset_and_hazards.md R215), and performs it to completion; with none offered
it is idle (60_exceptions.md R210). -/

namespace Sys2Proof.Machine

/-- One step. -/
def step (s : State) : Host.Outcome State Fault Refusal :=
  match s.takeInput with
  | none => .next s.idle
  | some (.reset, rest) => .next rest.takeReset
  | some (.cmd w, rest) => exec (decode w) rest

/-- `s` with the command word of a table row offered as the next input, in front of what is offered already
(log 3). The core fetches no instructions (R28): a command runs when the host presents it. A number of more
than ten bits is no command word (R60) and nothing is offered. -/
def State.withFetchWord (s : State) (nbits w : Nat) : State :=
  if wfCommandNumber (w % 2 ^ nbits) then
    { s with inbox := .cmd (BitVec.ofNat 10 (w % 2 ^ nbits)) :: s.inbox }
  else s

end Sys2Proof.Machine
end

