-- ==== Sys2Proof/Machine/Assembler.lean ====
section
/-! DEFINITION. The notation of command sequences (30_encoding.md R70) and the pseudo-commands (R71) as the
host inputs they stand for, ignored bits zero. No toolchain exists (R70); this is how a host program is
written in the spec's own terms. -/

namespace Sys2Proof.Machine

/-- `INIT`, canonical (R61). -/
def initWord : CmdWord := encode (.init 0)

/-- `ABSORB d`. -/
def absorbWord (d : Byte) : CmdWord := encode (.absorb d)

/-- `FINALIZE`, canonical (R61). -/
def finalizeWord : CmdWord := encode (.finalize 0)

/-- `READ k`, canonical (R61). -/
def readWord (k : BitVec 3) : CmdWord := encode (.read 0 k)

/-- The ASCII code of a character (R71; D24; PRESUMED, log 14). -/
def charByte (c : Char) : Byte := BitVec.ofNat 8 c.toNat

/-- One ABSORB for each byte, in order. -/
def absorbAll (m : List Byte) : List HostInput := m.map fun d => .cmd (absorbWord d)

/-- `READ 0`, …, `READ 7` (R71). -/
def readAll : List HostInput := (List.range 8).map fun k => .cmd (readWord (BitVec.ofNat 3 k))

/-- The host protocol for one message: INIT, one ABSORB a byte, FINALIZE (R71, R179). -/
def hashProgram (m : List Byte) : List HostInput :=
  .cmd initWord :: absorbAll m ++ [.cmd finalizeWord]

/-- The inputs of one line, refused (`none`) when the line is ill-formed (R70, R71). -/
def assemble (line : AsmLine) : Option (List HostInput) :=
  if line.wf then
    some (match line with
      | .reset => [.reset]
      | .init => [.cmd initWord]
      | .absorb byte => [.cmd (absorbWord (BitVec.ofNat 8 byte))]
      | .finalize => [.cmd finalizeWord]
      | .read index => [.cmd (readWord (BitVec.ofNat 3 index))]
      | .absorbs text => absorbAll (text.map charByte)
      | .absorbN byte count => absorbAll (List.replicate count (BitVec.ofNat 8 byte))
      | .digest => readAll
      | .hash text => hashProgram (text.map charByte) ++ readAll)
  else none

end Sys2Proof.Machine
end

