-- ==== Sys2Proof/Safety.lean ====
section
/-! DEFINITION. What the claims about the core are stated in: the invariants of its state (10_state.md R36),
the message a state stands for (45_commands.md R177), the PHASE table (R174), what of the buffer carries
meaning (R25), and runs of steps. -/

namespace Sys2Proof.Machine

/-- The architectural invariant (R36 (a) to (c), R22, R191): LEN is a multiple of 8 and so at most 2^64-8;
ERRCODE is InputError exactly in PHASE = ERROR and 0 otherwise; in ERROR, LEN is 2^64-8; and the buffer has
its canonical form. -/
abbrev State.Inv (s : State) : Prop :=
  s.buf.wf = true ∧ s.len.toNat % 8 = 0 ∧
  s.errCode = (if s.phase = .error then .inputError else .noError) ∧
  (s.phase = .error → s.len = maxLength)

/-- The first n bytes of the buffer. -/
def bufferBytes (buf : Memory) (n : Nat) : List Byte := (List.range n).map buf.read

/-- Block b of a message's bytes: the sixteen big-endian words of `m[64b .. 64b+63]` (R177). -/
def messageBlock (m : List Byte) (b : Nat) : Block :=
  Vector.ofFn fun t : Fin 16 =>
    let i := 64 * b + 4 * t.val
    wordOfBytes (m.getD i 0) (m.getD (i + 1) 0) (m.getD (i + 2) 0) (m.getD (i + 3) 0)

/-- The sixteen big-endian words of 64 bytes (R67). -/
def blockOfBytes (q : List Byte) : Block := messageBlock q 0

/-- `S_q` over the first q whole blocks of m, from `S_0 = H0` (R177). -/
def messageChain (m : List Byte) (q : Nat) : HashWords :=
  hashBlocks initialHashValues ((List.range q).map (messageBlock m))

/-- The state stands for the open message m (R177): LEN is its length in bits, `BUF[0..CNT-1]` are the bytes
after its last whole block, and H is the chain over its whole blocks. -/
structure State.Holds (s : State) (m : List Byte) : Prop where
  phase_eq : s.phase = .absorbing
  len_eq : s.len.toNat = bitLength m
  buf_eq : ∀ i, i < m.length % 64 → s.buf.read i = m.getD (64 * (m.length / 64) + i) 0
  h_eq : s.h = messageChain m (m.length / 64)

/-- Two states agree on everything but the buffer bytes that carry no meaning: those at CNT and above while
a message is open, and all of them otherwise (R25). -/
structure State.AgreeWhereMeaningful (s t : State) : Prop where
  h_eq : s.h = t.h
  len_eq : s.len = t.len
  phase_eq : s.phase = t.phase
  errCode_eq : s.errCode = t.errCode
  inbox_eq : s.inbox = t.inbox
  resp_eq : s.resp = t.resp
  buf_eq : s.phase = .absorbing → ∀ i, i < s.cnt → s.buf.read i = t.buf.read i

/-- The PHASE after one input, as the table of R174 has it. -/
def nextPhase (phase : Phase) (len : Length) : HostInput → Phase
  | .reset => .absorbing
  | .cmd w =>
    match phase, decode w with
    | _, .init _ => .absorbing
    | .absorbing, .absorb _ => if len = maxLength then .error else .absorbing
    | .absorbing, .finalize _ => .done
    | .absorbing, .read _ _ => .absorbing
    | .done, _ => .done
    | .error, _ => .error

/-- An input that is a RESET or an INIT, which start a new message (R202). -/
def startsMessage : HostInput → Bool
  | .reset => true
  | .cmd w =>
    match decode w with
    | .init _ => true
    | .absorb _ => false
    | .finalize _ => false
    | .read _ _ => false

/-- `n` steps from s, stopping at the first fault or refusal; the same run as the host's `Core.run` on
`Sys2Proof.core` (`runSteps_eq_run`). -/
def runSteps : Nat → State → Host.Outcome State Fault Refusal
  | 0, s => .next s
  | n + 1, s =>
    match step s with
    | .next t => runSteps n t
    | .fault r => .fault r
    | .refused r => .refused r

end Sys2Proof.Machine
end

