-- ==== Sys2Proof/Certificates/Slice0/Obligations.lean ====
section
/-! DEFINITION. The statements about the core, each from a rule of spec/ that says what a command, a step or a
function of the core does. -/

open Sys2Proof Sys2Proof.Machine

/-- The words of 30_encoding.md section 1 and 95_test_vectors.md sections 7 and 8, read as R61 reads them. -/
def Obligations.CommandWordsDecodeAsListed : Prop :=
  decode 0b0000000000 = .init 0 ∧ decode 0b0011111111 = .init 0xff ∧
  decode 0b0101100001 = .absorb 0x61 ∧ decode 0b0100000000 = .absorb 0x00 ∧
  decode 0b1000000000 = .finalize 0 ∧ decode 0b1010100101 = .finalize 0xa5 ∧
  decode 0b1100000100 = .read 0 4 ∧ decode 0b1111111111 = .read 0b11111 7 ∧
  decode 0b1111111000 = .read 0b11111 0

/-- Each command is read back from its own word, with every operand bit (30_encoding.md section 1). -/
def Obligations.DecodeEncodeGivesTheCommandBack : Prop := ∀ i : Instr, decode (encode i) = i

/-- Each word is the word of the command it decodes to, so that the decoder is a bijection. R64 says only that
each word decodes to one of the four commands: that the word comes back whole is the MODEL's choice, which
keeps the bits a command ignores as operands (log 15). -/
def Obligations.EncodeDecodeGivesTheWordBack : Prop := ∀ w : CmdWord, encode (decode w) = w

/-- Each of the 1024 words is covered by one row of the opcode table and no other, and decodes to that row's
command (R64). -/
def Obligations.EveryWordMatchesExactlyOneRow : Prop :=
  ∀ w : CmdWord, (opcodeTable.filter (·.covers w)).map (·.mnemonic) = [(decode w).mnemonic]

/-- A number of more than ten bits is no command word (R60), and one of at most ten bits is read as its word. -/
def Obligations.TableWordsAreReadWithinTenBits : Prop :=
  (∀ nbits w, 1024 ≤ w % 2 ^ nbits → decodeTableWord nbits w = none) ∧
  (∀ nbits i, 10 ≤ nbits → decodeTableWord nbits (encode i).toNat = some i)

/-- A command word offered next is decoded and performed on the state without it (R160); so is the word a
command encodes to, put in front with `withFetchWord` (log 3). -/
def Obligations.StepRunsTheDecodedCommand : Prop :=
  (∀ (s : State) (w : CmdWord) (rest : List HostInput), s.inbox = .cmd w :: rest →
    step s = exec (decode w) { s with inbox := rest }) ∧
  (∀ (s : State) (i : Instr) (nbits : Nat), 10 ≤ nbits →
    step (s.withFetchWord nbits (encode i).toNat) = exec i s)

/-- The bits a command ignores change neither its effect nor its response (R64). -/
def Obligations.IgnoredBitsNeverMatter : Prop :=
  ∀ (s : State) (rest : List HostInput) (w w' : CmdWord), cmdOp w = cmdOp w' →
    (cmdOp w = 0b01 → cmdArg w = cmdArg w') →
    (cmdOp w = 0b11 → argLowThree (cmdArg w) = argLowThree (cmdArg w')) →
    step { s with inbox := .cmd w :: rest } = step { s with inbox := .cmd w' :: rest }

/-- What a RESET step leaves, and that it has no response (R215). Nothing is said of BUF, which R215 leaves
unspecified. -/
def Obligations.ResetStepOpensANewMessage : Prop :=
  ∀ (s : State) (rest : List HostInput), s.inbox = .reset :: rest →
    ∃ t, step s = .next t ∧ t.h = initialHashValues ∧ t.len = 0 ∧ t.phase = .absorbing ∧
      t.errCode = .noError ∧ t.inbox = rest ∧ t.resp = none

/-- With nothing offered a step holds the state and gives no response. That an idle core takes a step is the
MODEL's choice (log 2), from R210's "idle with its state held". -/
def Obligations.IdleStepHoldsTheState : Prop :=
  ∀ s : State, s.inbox = [] → step s = .next { s with resp := none }

/-- Every step answers a next state: nothing faults, nothing is refused, nothing hangs (R180, R194, R195). -/
def Obligations.EveryStepAnswersNext : Prop := ∀ s : State, ∃ t, step s = .next t

/-- The reset values of R37. -/
def Obligations.ResetValuesAreAsTabulated : Prop :=
  State.reset.h = #v[0x6a09e667, 0xbb67ae85, 0x3c6ef372, 0xa54ff53a, 0x510e527f, 0x9b05688c, 0x1f83d9ab,
    0x5be0cd19] ∧
  State.reset.len = 0 ∧ State.reset.cnt = 0 ∧ State.reset.phase.code = 0 ∧ State.reset.errCode.code = 0 ∧
  State.reset.status = 0b0000

/-- INIT in every PHASE: H, LEN, PHASE, ERRCODE and the response as R161 gives them, STATUS 0, and nothing
else changed (BUF "is not written"). -/
def Obligations.InitOpensANewMessage : Prop :=
  ∀ (arg : BitVec 8) (s : State), ∃ t, exec (.init arg) s = .next t ∧
    t = { s with
      h := initialHashValues, len := 0, phase := .absorbing, errCode := .noError, resp := some ⟨true, 0⟩ } ∧
    t.status = 0b0000 ∧ ∀ a, t.buf.read a = s.buf.read a

/-- After any state whatever, INIT and RESET leave the same H, LEN, PHASE, ERRCODE and STATUS, those of the
reset state (R179). -/
def Obligations.InitAndResetLeaveTheSameState : Prop :=
  ∀ (s t u : State) (w : CmdWord) (arg : BitVec 8) (rest : List HostInput), decode w = .init arg →
    step { s with inbox := .cmd w :: rest } = .next t →
    step { s with inbox := .reset :: rest } = .next u →
    (t.h, t.len, t.phase, t.errCode, t.status) = (u.h, u.len, u.phase, u.errCode, u.status) ∧
    (u.h, u.len, u.phase, u.errCode, u.status) =
      (State.reset.h, State.reset.len, State.reset.phase, State.reset.errCode, State.reset.status)

/-- ABSORB performed (R163): the byte is stored at CNT and nowhere else, LEN grows by 8, the 64th byte of a
block processes it, PHASE and ERRCODE do not change. -/
def Obligations.AbsorbAppendsAByte : Prop :=
  ∀ (d : Byte) (s : State), s.phase = .absorbing → s.len.toNat ≤ 2 ^ 64 - 16 →
    ∃ t, exec (.absorb d) s = .next t ∧
      t.len.toNat = s.len.toNat + 8 ∧ t.cnt = (s.cnt + 1) % 64 ∧
      t.phase = s.phase ∧ t.errCode = s.errCode ∧ t.inbox = s.inbox ∧ t.resp = some ⟨true, 0⟩ ∧
      t.buf.read s.cnt = d ∧ (∀ a, a ≠ s.cnt → t.buf.read a = s.buf.read a) ∧
      (s.cnt ≠ 63 → t.h = s.h) ∧
      (s.cnt = 63 → t.h = compress s.h (expand (bufferBlock t.buf)) roundConstants)

/-- ABSORB at LEN = 2^64-8 raises InputError: PHASE, ERRCODE and the response, STATUS 0b0110, and nothing else
(R164, R193, R201). -/
def Obligations.AbsorbAtTheLargestLengthRaisesInputError : Prop :=
  ∀ (d : Byte) (s : State), s.phase = .absorbing → s.len.toNat = 2 ^ 64 - 8 →
    ∃ t, exec (.absorb d) s = .next t ∧
      t = { s with phase := .error, errCode := .inputError, resp := some ⟨false, 0⟩ } ∧ t.status = 0b0110

/-- A command in a PHASE that does not admit it changes nothing and answers ok = 0, data = 0; INIT is never
refused (R196). An ABSORB in ERROR is refused whatever LEN is (R200). -/
def Obligations.RefusedCommandsChangeNothing : Prop :=
  (∀ (d : Byte) (s : State), s.phase = .done ∨ s.phase = .error →
    exec (.absorb d) s = .next { s with resp := some ⟨false, 0⟩ }) ∧
  (∀ (arg : BitVec 8) (s : State), s.phase = .done ∨ s.phase = .error →
    exec (.finalize arg) s = .next { s with resp := some ⟨false, 0⟩ }) ∧
  (∀ (argHi : BitVec 5) (k : BitVec 3) (s : State), s.phase = .absorbing ∨ s.phase = .error →
    exec (.read argHi k) s = .next { s with resp := some ⟨false, 0⟩ }) ∧
  (∀ (arg : BitVec 8) (s : State), ∃ t, exec (.init arg) s = .next t ∧ t.resp = some ⟨true, 0⟩)

/-- FINALIZE performed (R167, R168): with r = CNT and l = LEN, one block `BUF[0..r-1], 80, 00.., l` when r is
at most 55, else the two blocks `BUF[0..r-1], 80, 00..` and `00.., l`, processed in that order; BUF holds the
last of them; LEN and ERRCODE are kept; PHASE is DONE. -/
def Obligations.FinalizePadsAndProcessesTheLastBlocks : Prop :=
  ∀ (arg : BitVec 8) (s : State), s.phase = .absorbing →
    ∃ t, exec (.finalize arg) s = .next t ∧
      t.phase = .done ∧ t.len = s.len ∧ t.errCode = s.errCode ∧ t.inbox = s.inbox ∧
      t.resp = some ⟨true, 0⟩ ∧ (∀ a, 64 ≤ a → t.buf.read a = s.buf.read a) ∧
      (s.cnt ≤ 55 →
        let last := bufferBytes s.buf s.cnt ++ 0x80 :: List.replicate (55 - s.cnt) 0x00 ++
          beBytes 8 s.len.toNat
        t.h = compress s.h (expand (blockOfBytes last)) roundConstants ∧ bufferBytes t.buf 64 = last) ∧
      (56 ≤ s.cnt →
        let first := bufferBytes s.buf s.cnt ++ 0x80 :: List.replicate (63 - s.cnt) 0x00
        let last := List.replicate 56 0x00 ++ beBytes 8 s.len.toNat
        t.h = compress (compress s.h (expand (blockOfBytes first)) roundConstants)
          (expand (blockOfBytes last)) roundConstants ∧
        bufferBytes t.buf 64 = last)

/-- READ in DONE answers H[k] and changes nothing; in every other PHASE it is refused (R172). -/
def Obligations.ReadAnswersTheDigestWord : Prop :=
  ∀ (argHi : BitVec 5) (k : BitVec 3) (s : State),
    (s.phase = .done → exec (.read argHi k) s = .next { s with resp := some ⟨true, s.h[k.toNat]'k.isLt⟩ }) ∧
    (s.phase ≠ .done → exec (.read argHi k) s = .next { s with resp := some ⟨false, 0⟩ })

/-- STATUS bit by bit (R29); DIGEST_VALID and ERROR are never 1 together. -/
def Obligations.StatusBitsFollowPhaseAndErrcode : Prop :=
  ∀ s : State,
    (s.status.getLsbD 0 = true ↔ s.phase = .done) ∧ (s.status.getLsbD 1 = true ↔ s.phase = .error) ∧
    s.status.extractLsb' 2 2 = s.errCode.code ∧
    ¬(s.status.getLsbD 0 = true ∧ s.status.getLsbD 1 = true)

/-- In states that meet the invariant STATUS takes three values, one for each PHASE (95_test_vectors.md
section 7). -/
def Obligations.StatusTakesOneValueForEachPhase : Prop :=
  ∀ s : State, s.Inv →
    s.status = (match s.phase with | .absorbing => 0b0000 | .done => 0b0001 | .error => 0b0110)

/-- The reset state meets the invariant. -/
def Obligations.ResetMeetsTheInvariant : Prop := State.reset.Inv

/-- Every step keeps the invariant: LEN a multiple of 8, ERRCODE InputError exactly in ERROR and LEN 2^64-8
there, the buffer canonical (R36 (a) to (c), R22, R27, R191). -/
def Obligations.EveryStepKeepsTheInvariant : Prop :=
  ∀ s t : State, s.Inv → step s = .next t → t.Inv

/-- PHASE has the codes 0, 1, 2, never 3, and changes as R26 says, and at no other time. -/
def Obligations.PhaseChangesOnlyAsListed : Prop :=
  (Phase.absorbing.code = 0 ∧ Phase.done.code = 1 ∧ Phase.error.code = 2 ∧ ∀ phase : Phase, phase.code ≠ 3) ∧
  (∀ (s t : State) (input : HostInput) (rest : List HostInput), s.inbox = input :: rest →
    step s = .next t → t.phase = nextPhase s.phase s.len input) ∧
  (∀ s t : State, s.inbox = [] → step s = .next t → t.phase = s.phase)

/-- H changes only when a message is opened, by the ABSORB that completes a block, or by FINALIZE, each in
its own way (R21). -/
def Obligations.HashStateIsWrittenOnlyByItsWriters : Prop :=
  ∀ s t : State, step s = .next t → t.h ≠ s.h →
    ∃ input rest, s.inbox = input :: rest ∧
      ((startsMessage input = true ∧ t.h = initialHashValues) ∨
       (∃ w d, input = .cmd w ∧ decode w = .absorb d ∧ s.phase = .absorbing ∧ s.cnt = 63 ∧
         t.h = hashBlock s.h (bufferBlock t.buf)) ∨
       (∃ w arg, input = .cmd w ∧ decode w = .finalize arg ∧ s.phase = .absorbing ∧ t.phase = .done ∧
         (s.cnt ≤ 55 → t.h = hashBlock s.h (bufferBlock t.buf)) ∧
         (56 ≤ s.cnt → ∃ first, t.h = hashBlock (hashBlock s.h first) (bufferBlock t.buf))))

/-- LEN becomes 0 when a message is opened, grows by 8 without overflow in a performed ABSORB, and is kept by
everything else (R22, R90). -/
def Obligations.LengthNeverWraps : Prop :=
  ∀ s t : State, s.Inv → step s = .next t →
    t.len.toNat = s.len.toNat ∨
    (∃ input rest, s.inbox = input :: rest ∧ startsMessage input = true ∧ t.len.toNat = 0) ∨
    (∃ w d rest, s.inbox = .cmd w :: rest ∧ decode w = .absorb d ∧ s.phase = .absorbing ∧
      t.len.toNat = s.len.toNat + 8 ∧ t.len.toNat ≤ 2 ^ 64 - 8)

/-- A response with data other than 0 is a digest word: only a READ in DONE answers one, and it is H[k]
("No partial digests are ever surfaced", R149, R172, R222). -/
def Obligations.OnlyDigestWordsAreSurfaced : Prop :=
  ∀ (s t : State) (r : Response), step s = .next t → t.resp = some r → r.data ≠ 0 →
    s.phase = .done ∧ ∃ w rest argHi k, s.inbox = .cmd w :: rest ∧ decode w = .read argHi k ∧
      r = ⟨true, s.h[k.toNat]'k.isLt⟩

/-- Buffer bytes at CNT and above carry no meaning (R25): two states that differ in nothing else go, step by
step, to two such states, with the same response. So no claim about what the core does rests on what the
model lets an unwritten byte read as (log 4). -/
def Obligations.UnwrittenBufferBytesNeverMatter : Prop :=
  ∀ s s' t : State, s.AgreeWhereMeaningful s' → step s = .next t →
    ∃ t', step s' = .next t' ∧ t.AgreeWhereMeaningful t'

/-- From a PHASE that has closed its message, any inputs but RESET and INIT change nothing (R193, R202, R221):
the digest stays readable, the error stays, and in ERROR no response has ok = 1. -/
def Obligations.ClosedPhaseLastsUntilANewMessage : Prop :=
  ∀ (n : Nat) (s : State), s.phase ≠ .absorbing →
    (∀ input ∈ s.inbox.take n, startsMessage input = false) →
    ∃ t, runSteps n s = .next t ∧ t.phase = s.phase ∧ t.errCode = s.errCode ∧ t.h = s.h ∧ t.len = s.len ∧
      t.buf = s.buf ∧ t.inbox = s.inbox.drop n ∧
      (s.phase = .error → 0 < n → t.resp = none ∨ t.resp = some ⟨false, 0⟩)

/-- A MemRead of what a MemWrite wrote gives it back, and the MemWrite changes no other byte (R44). -/
def Obligations.BufferReadsBackWhatWasWritten : Prop :=
  ∀ (buf : Memory) (addr n v : Nat), addr + n ≤ 64 → v < 2 ^ (8 * n) →
    memRead (memWrite buf addr n v) addr n = v ∧
    ∀ a, a < addr ∨ addr + n ≤ a → (memWrite buf addr n v).read a = buf.read a

/-- Rotation and shift bit by bit (R9). -/
def Obligations.RotationAndShiftMoveBits : Prop :=
  ∀ (x : Word) (n : Nat) (amount : 0 < n ∧ n < 32) (i : Nat), i < 32 →
    (rotr x n amount).getLsbD i = x.getLsbD ((i + n) % 32) ∧
    (shr x n amount).getLsbD i = (if i + n ≤ 31 then x.getLsbD (i + n) else false)

/-- s0 and s1 bit by bit, and that each is linear over xor (R122, R123). -/
def Obligations.ScheduleMixingFunctionsBitByBit : Prop :=
  (∀ (x : Word) (i : Nat), i < 32 →
    (s0 x).getLsbD i = Bool.xor (Bool.xor (x.getLsbD ((i + 7) % 32)) (x.getLsbD ((i + 18) % 32)))
      (if i ≤ 28 then x.getLsbD (i + 3) else false) ∧
    (s1 x).getLsbD i = Bool.xor (Bool.xor (x.getLsbD ((i + 17) % 32)) (x.getLsbD ((i + 19) % 32)))
      (if i ≤ 21 then x.getLsbD (i + 10) else false)) ∧
  (∀ x y : Word, s0 (x ^^^ y) = s0 x ^^^ s0 y ∧ s1 (x ^^^ y) = s1 x ^^^ s1 y)

/-- The round's mixing functions bit by bit: Σ0 and Σ1 (R135, R136), Ch as a selector, with `or` and `+` in
place of its `xor` (R137), Maj as the majority, symmetric (R138). -/
def Obligations.RoundMixingFunctionsBitByBit : Prop :=
  (∀ (x : Word) (i : Nat), i < 32 →
    (bigS0 x).getLsbD i = Bool.xor (Bool.xor (x.getLsbD ((i + 2) % 32)) (x.getLsbD ((i + 13) % 32)))
      (x.getLsbD ((i + 22) % 32)) ∧
    (bigS1 x).getLsbD i = Bool.xor (Bool.xor (x.getLsbD ((i + 6) % 32)) (x.getLsbD ((i + 11) % 32)))
      (x.getLsbD ((i + 25) % 32))) ∧
  (∀ (x y z : Word) (i : Nat), i < 32 →
    (ch x y z).getLsbD i = (if x.getLsbD i then y.getLsbD i else z.getLsbD i) ∧
    ((maj x y z).getLsbD i = true ↔
      2 ≤ (x.getLsbD i).toNat + (y.getLsbD i).toNat + (z.getLsbD i).toNat)) ∧
  (∀ x y z : Word,
    ch x y z = (x &&& y) ||| (~~~x &&& z) ∧ ch x y z = (x &&& y) + (~~~x &&& z) ∧
    maj x y z = maj y x z ∧ maj x y z = maj x z y)

/-- `W[0..15]` are the block's words and the others follow the recurrence (R126). -/
def Obligations.ScheduleFollowsTheRecurrence : Prop :=
  ∀ m : Block,
    (∀ (t : Nat) (first : t < 16), (expand m)[t] = m[t]) ∧
    (∀ (i : Nat) (inLoop : 16 ≤ i ∧ i < 64),
      (expand m)[i] = (expand m)[i - 16] + s0 (expand m)[i - 15] + (expand m)[i - 7] + s1 (expand m)[i - 2])

/-- The sixteen-word window after n shifts holds `W[n..n+15]`: an implementation that keeps only the window
yields the same sequence (R128, R31). -/
def Obligations.ScheduleWindowYieldsTheSameWords : Prop :=
  ∀ (m : Block) (n : Nat) (shifts : n ≤ 48) (t : Nat) (inWindow : t < 16),
    (windowAfter m n)[t] = (expand m)[n + t]

/-- D0's eight assignments in its order give the simultaneous assignment of R140 (R141). -/
def Obligations.RoundInOrderIsSimultaneous : Prop :=
  ∀ (r : Regs) (kj wj : Word), oneRoundInOrder r kj wj = oneRound r kj wj

/-- `compress` is the initialisation of R139, the round of R140 for j = 0..63 in this order, each on the
registers the previous round left (R141), and the feed-forward of R142, for any state, schedule and table
(R143). -/
def Obligations.CompressIsSixtyFourRoundsAndFeedForward : Prop :=
  ∀ (st : HashWords) (w k : Schedule), ∃ r : Nat → Regs,
    r 0 = ⟨st[0], st[1], st[2], st[3], st[4], st[5], st[6], st[7]⟩ ∧
    (∀ (j : Nat) (inRounds : j < 64),
      let temp1 := (r j).h + bigS1 (r j).e + ch (r j).e (r j).f (r j).g + k[j] + w[j]
      let temp2 := bigS0 (r j).a + maj (r j).a (r j).b (r j).c
      r (j + 1) = ⟨temp1 + temp2, (r j).a, (r j).b, (r j).c, (r j).d + temp1, (r j).e, (r j).f, (r j).g⟩) ∧
    compress st w k = #v[st[0] + (r 64).a, st[1] + (r 64).b, st[2] + (r 64).c, st[3] + (r 64).d,
      st[4] + (r 64).e, st[5] + (r 64).f, st[6] + (r 64).g, st[7] + (r 64).h]

/-- The derivation's primes are the first 64, in order (R115). -/
def Obligations.DerivationPrimesAreTheFirstSixtyFour : Prop :=
  derivationPrimes.length = 64 ∧ derivationPrimes.Pairwise (· < ·) ∧
  ∀ p, p ∈ derivationPrimes ↔ p < 312 ∧ p.Prime

/-- Both tables are the low 32 bits of the integer roots of R111's integer formulation. -/
def Obligations.TablesFollowTheIntegerDerivation : Prop :=
  (∀ (k : Nat) (inTable : k < 8), ∃ r,
    IsIntegerSquareRoot (derivationPrimes.getD k 0 * 2 ^ 64) r ∧
    initialHashValues[k].toNat = r % 2 ^ 32) ∧
  (∀ (j : Nat) (inTable : j < 64), ∃ r,
    IsIntegerCubeRoot (derivationPrimes.getD j 0 * 2 ^ 96) r ∧
    roundConstants[j].toNat = r % 2 ^ 32)

/-- Both tables are `floor(frac(root) * 2^32)` over the real numbers, the square root for H0 and the cube root
for K (R111). -/
def Obligations.TablesAreFractionalPartsOfRoots : Prop :=
  (∀ (k : Nat) (inTable : k < 8),
    (initialHashValues[k].toNat : ℤ) =
      ⌊Int.fract (Real.sqrt (derivationPrimes.getD k 0 : ℝ)) * 2 ^ 32⌋) ∧
  (∀ (j : Nat) (inTable : j < 64), ∃ root : ℝ, 0 ≤ root ∧ root ^ 3 = (derivationPrimes.getD j 0 : ℝ) ∧
    (roundConstants[j].toNat : ℤ) = ⌊Int.fract root * 2 ^ 32⌋)

/-- `pad` is the message's bits, a `1`, the least number of `0` bits that makes the length 448 modulo 512, and
the length in 64 bits (R80), with k in closed form (R81); it fails with InputError exactly when the bit
length reaches 2^64 (R87). -/
def Obligations.PadUsesTheLeastNumberOfZeros : Prop :=
  ∀ m : List Byte,
    (2 ^ 64 ≤ 8 * m.length → pad m = .error .inputError) ∧
    (8 * m.length < 2 ^ 64 → ∃ k : Nat,
      pad m = .ok (bitsOfBytes m ++ [true] ++ List.replicate k false ++ beBits 64 (8 * m.length)) ∧
      (8 * m.length + 1 + k) % 512 = 448 ∧ (∀ k' < k, (8 * m.length + 1 + k') % 512 ≠ 448) ∧
      (k : ℤ) = (447 - (8 * m.length : ℤ)) % 512 ∧ k % 8 = 7)

/-- The padded length is l + 1 + k + 64 = 512 N, with N = ceil((l + 65) / 512) = floor((n + 8) / 64) + 1
= ceil((n + 9) / 64), at least 1 (R82). -/
def Obligations.PaddedLengthIsWholeBlocks : Prop :=
  ∀ m : List Byte,
    (paddedBits m).length = 8 * m.length + 1 + padZeroBits (8 * m.length) + 64 ∧
    ∃ N, 1 ≤ N ∧ (paddedBits m).length = 512 * N ∧ N = (8 * m.length + 65 + 511) / 512 ∧
      N = (m.length + 8) / 64 + 1 ∧ N = (m.length + 9 + 63) / 64

/-- The byte form of the padded message (R83). -/
def Obligations.PaddedMessageHasTheByteForm : Prop :=
  ∀ m : List Byte,
    paddedBits m = bitsOfBytes (m ++ [0x80] ++ List.replicate (padZeroBytes m.length) 0x00 ++
      beBytes 8 (8 * m.length)) ∧
    (padZeroBytes m.length : ℤ) = (55 - (m.length : ℤ)) % 64 ∧
    m.length + 1 + padZeroBytes m.length + 8 = 64 * ((m.length + 8) / 64 + 1)

/-- What the Block Parser may assume of the padded message, and that two messages never pad alike (R88). -/
def Obligations.PaddingDeterminesTheMessage : Prop :=
  (∀ m : List Byte, 8 * m.length < 2 ^ 64 →
    0 < (paddedBits m).length ∧ (paddedBits m).length % 512 = 0 ∧
    (paddedBits m).take (8 * m.length) = bitsOfBytes m ∧
    (paddedBits m)[8 * m.length]? = some true ∧
    (paddedBits m).drop ((paddedBits m).length - 64) = beBits 64 (8 * m.length) ∧
    ∀ i, 8 * m.length < i → i < (paddedBits m).length - 64 → (paddedBits m)[i]? = some false) ∧
  (∀ m m' : List Byte, 8 * m.length < 2 ^ 64 → 8 * m'.length < 2 ^ 64 →
    paddedBits m = paddedBits m' → m = m')

/-- `parse` neither adds, drops nor reorders bits (R102). -/
def Obligations.ParseLosesNoBits : Prop :=
  ∀ p : List Bool, p.length % 512 = 0 →
    ∃ blocks, parse p = .ok blocks ∧ blocks.length = p.length / 512 ∧
      blocks.flatMap (fun m => m.toList.flatMap fun w => beBits 32 w.toNat) = p

/-- A parsed word is its four bytes, the first most significant, in a parsed byte sequence (R101) and in the
block buffer (R103). -/
def Obligations.ParsedWordsAreBigEndian : Prop :=
  (∀ (q : List Byte) (b t : Nat) (inBlock : t < 16), 64 * (b + 1) ≤ q.length →
    ((parseBlock (bitsOfBytes q) b)[t]).toNat =
      (q.getD (64 * b + 4 * t) 0).toNat * 2 ^ 24 + (q.getD (64 * b + 4 * t + 1) 0).toNat * 2 ^ 16 +
      (q.getD (64 * b + 4 * t + 2) 0).toNat * 2 ^ 8 + (q.getD (64 * b + 4 * t + 3) 0).toNat) ∧
  (∀ (buf : Memory) (t : Nat) (inBlock : t < 16),
    ((bufferBlock buf)[t]).toNat =
      (buf.read (4 * t)).toNat * 2 ^ 24 + (buf.read (4 * t + 1)).toNat * 2 ^ 16 +
      (buf.read (4 * t + 2)).toNat * 2 ^ 8 + (buf.read (4 * t + 3)).toNat)

/-- InternalInvariantViolation never arises: not for a padded message, and not in a step (R194). That `parse`
answers it for an ill-sized operand is the MODEL's choice (log 8): R104 says that `parse` raises nothing on
the operands it gets, and that an ill-sized one is never corrected. -/
def Obligations.InternalInvariantIsNeverViolated : Prop :=
  (∀ p : List Bool, p.length % 512 ≠ 0 → parse p = .error .internalInvariantViolation) ∧
  (∀ m : List Byte, sha256Words m ≠ .error .internalInvariantViolation) ∧
  (∀ (s : State) (reason : Fault), step s ≠ .fault reason) ∧
  (∀ s t : State, s.errCode ≠ .internalInvariantViolation → step s = .next t →
    t.errCode ≠ .internalInvariantViolation)

/-- The hexadecimal rendering has 64 characters, character 8k+i being digit i of word k, most significant
first, and two digests never render alike (R150; the digit characters are presumed, log 14). -/
def Obligations.HexRenderingHasSixtyFourDigits : Prop :=
  (∀ st : HashWords, (hexChars st).length = 64 ∧
    ∀ (k i : Nat) (inState : k < 8), i < 8 →
      (hexChars st)[8 * k + i]? = some (hexDigit (st[k].extractLsb' (4 * (7 - i)) 4))) ∧
  (∀ st st' : HashWords, hexChars st = hexChars st' → st = st')

/-- `sha256` gives 64 characters for every message of less than 2^61 bytes and InputError for every other
(R151; the digit characters are presumed, log 14). -/
def Obligations.Sha256FailsExactlyOnOverlongMessages : Prop :=
  ∀ m : List Byte,
    (m.length < 2 ^ 61 → ∃ digest, sha256 m = .ok digest ∧ digest.length = 64) ∧
    (2 ^ 61 ≤ m.length → sha256 m = .error .inputError)

/-- After a RESET or an INIT the state stands for the empty message (R177, its base). -/
def Obligations.NewMessageIsEmpty : Prop :=
  ∀ (s t : State) (input : HostInput) (rest : List HostInput), s.inbox = input :: rest →
    startsMessage input = true → step s = .next t → t.Holds []

/-- A performed ABSORB appends its byte to the message the state stands for, and READ leaves it (R177). -/
def Obligations.AbsorbExtendsTheHeldMessage : Prop :=
  ∀ (s : State) (m : List Byte), s.Holds m →
    (∀ d : Byte, m.length + 1 ≤ 2 ^ 61 - 1 →
      ∃ t, exec (.absorb d) s = .next t ∧ t.resp = some ⟨true, 0⟩ ∧ t.Holds (m ++ [d])) ∧
    (∀ (argHi : BitVec 5) (k : BitVec 3), ∃ t, exec (.read argHi k) s = .next t ∧ t.Holds m)

/-- FINALIZE leaves in H the hash of the message the state stands for (R168, R178). -/
def Obligations.FinalizeHashesTheHeldMessage : Prop :=
  ∀ (s : State) (m : List Byte) (arg : BitVec 8), s.Holds m →
    ∃ t, exec (.finalize arg) s = .next t ∧ t.resp = some ⟨true, 0⟩ ∧ t.phase = .done ∧
      sha256Words m = .ok t.h

/-- The correspondence with D0's function (R178): from every state, INIT, one ABSORB a byte of a message of at
most 2^61-1 bytes, and FINALIZE are performed throughout, end in DONE, and leave `H = sha256_words(m)`, which
the READs then answer; after a RESET the INIT may be omitted. -/
def Obligations.CommandSequenceComputesSha256 : Prop :=
  (∀ (s : State) (m : List Byte) (rest : List HostInput), m.length ≤ 2 ^ 61 - 1 →
    s.inbox = hashProgram m ++ rest →
    ∃ t st, runSteps (m.length + 2) s = .next t ∧ t.phase = .done ∧ t.inbox = rest ∧
      sha256Words m = .ok st ∧ t.h = st ∧
      (∀ j, 0 < j → j ≤ m.length + 2 → ∃ u, runSteps j s = .next u ∧ u.resp = some ⟨true, 0⟩) ∧
      (∀ (argHi : BitVec 5) (k : BitVec 3), ∃ u,
        exec (.read argHi k) t = .next u ∧ u.resp = some ⟨true, st[k.toNat]'k.isLt⟩)) ∧
  (∀ (s : State) (m : List Byte) (rest : List HostInput), m.length ≤ 2 ^ 61 - 1 →
    s.inbox = .reset :: (absorbAll m ++ .cmd finalizeWord :: rest) →
    ∃ t, runSteps (m.length + 2) s = .next t ∧ t.phase = .done ∧ t.inbox = rest ∧
      sha256Words m = .ok t.h)

/-- A message of 2^61 bytes or more ends in ERROR at its 2^61-th ABSORB, with no digest readable, and every
command before it is performed (R178, R164). -/
def Obligations.OverlongMessageEndsInError : Prop :=
  ∀ (s : State) (m : List Byte) (rest : List HostInput), 2 ^ 61 ≤ m.length →
    s.inbox = hashProgram m ++ rest →
    ∃ t, runSteps (2 ^ 61 + 1) s = .next t ∧ t.phase = .error ∧ t.errCode = .inputError ∧
      t.resp = some ⟨false, 0⟩ ∧
      (∀ j, 0 < j → j ≤ 2 ^ 61 → ∃ u, runSteps j s = .next u ∧ u.resp = some ⟨true, 0⟩) ∧
      (∀ (argHi : BitVec 5) (k : BitVec 3), ∃ u,
        exec (.read argHi k) t = .next u ∧ u.resp = some ⟨false, 0⟩)

/-- The pseudo-commands HASH, DIGEST, ABSORBS and ABSORBN as the words of R61 (R71; a character is its ASCII code, presumed,
log 14), and that an ill-formed line has no expansion. -/
def Obligations.PseudoCommandsExpandAsListed : Prop :=
  (∀ text : List Char, (∀ c ∈ text, c.toNat < 128) →
    assemble (.hash text) = some ([.cmd 0x000] ++
      text.map (fun c => .cmd (BitVec.ofNat 10 (0x100 + c.toNat))) ++ [.cmd 0x200] ++
      [.cmd 0x300, .cmd 0x301, .cmd 0x302, .cmd 0x303, .cmd 0x304, .cmd 0x305, .cmd 0x306, .cmd 0x307])) ∧
  assemble .digest =
    some [.cmd 0x300, .cmd 0x301, .cmd 0x302, .cmd 0x303, .cmd 0x304, .cmd 0x305, .cmd 0x306, .cmd 0x307] ∧
  (∀ text : List Char, (∀ c ∈ text, c.toNat < 128) →
    assemble (.absorbs text) = some (text.map fun c => .cmd (BitVec.ofNat 10 (0x100 + c.toNat)))) ∧
  (∀ byte count, byte < 256 →
    assemble (.absorbN byte count) = some (List.replicate count (.cmd (BitVec.ofNat 10 (0x100 + byte))))) ∧
  (∀ line : AsmLine, line.wf = false → assemble line = none)
end

