-- ==== Sys2Proof/Config.lean ====
section
/-! DEFINITION. The parameters of R5 that the spec leaves OPEN. The fixed parameters of R5 (32-bit words,
16-word blocks, 64 rounds, a 10-bit command) stand in the types of Word.lean; the tables K and H0 stand in
Machine/Constants.lean. Each latency below is a finite number of clock cycles (R180, R228) and nothing
more is known of it: it has no body, and "no rule depends on it" (R5), so no definition of the model reads
it (log 10). PORT_BINDING (R230) is out of the model (log 11). -/

namespace Sys2Proof

/-- T_INIT: the latency of INIT in cycles, OPEN (R5, R228; 92_eei_decisions.md D20). -/
opaque Config.latencyInit : Nat

/-- T_ABSORB: the latency of ABSORB without block processing, OPEN (R5, R228; D20). -/
opaque Config.latencyAbsorb : Nat

/-- T_BLOCK: the latency of one ProcessBlock, OPEN (R5, R228; D20). -/
opaque Config.latencyBlock : Nat

/-- T_FINALIZE: the latency of FINALIZE, OPEN (R5, R228; D20). -/
opaque Config.latencyFinalize : Nat

/-- T_READ: the latency of READ, OPEN (R5, R228; D20). -/
opaque Config.latencyRead : Nat

end Sys2Proof
end

