-- ==== Sys2Proof/Laws/Memory.lean ====
section
/-! SUPPORT. What the block buffer's primitives do, once each: what a byte reads as after a write, and that
every write keeps the canonical form. -/

namespace Sys2Proof.Machine

@[simp] theorem read_nil (a : Nat) : Memory.read [] a = Memory.unlisted := rfl

@[simp] theorem wf_nil : Memory.wf [] = true := rfl

theorem read_insert (m : Memory) (a b : Nat) (v : Byte) :
    (m.insert a v).read b = if b = a then v else m.read b := by
  induction m with
  | nil => simp [Memory.insert, Memory.read, eq_comm]
  | cons cell rest ih =>
    obtain ⟨c, w⟩ := cell
    by_cases below : a < c
    · simp [Memory.insert, Memory.read, below, eq_comm]
    · by_cases here : a = c
      · subst here
        by_cases same : a = b <;> simp [Memory.insert, Memory.read, same, eq_comm (a := b)]
      · by_cases found : c = b
        · subst found
          simp [Memory.insert, Memory.read, below, here, Ne.symm here]
        · simp [Memory.insert, Memory.read, below, here, found, ih]

theorem read_erase (m : Memory) (a b : Nat) :
    (m.erase a).read b = if b = a then Memory.unlisted else m.read b := by
  induction m with
  | nil => simp [Memory.erase]
  | cons cell rest ih =>
    obtain ⟨c, w⟩ := cell
    simp only [Memory.erase] at ih
    by_cases dropped : c = a
    · subst dropped
      by_cases same : b = c
      · simp [Memory.erase, same] at ih ⊢
        simpa [same] using ih
      · simp [Memory.erase, Memory.read, ih, same, Ne.symm same]
    · by_cases found : c = b
      · subst found
        simp [Memory.erase, Memory.read, dropped]
      · simp [Memory.erase, Memory.read, dropped, found, ih]

/-- A read after a write: the byte written at its index, every other byte as before. -/
theorem read_write (m : Memory) (a b : Nat) (v : Byte) :
    (m.write a v).read b = if b = a then v else m.read b := by
  unfold Memory.write
  split
  · rename_i unlisted
    rw [read_erase, unlisted]
  · exact read_insert m a b v

theorem wfFrom_mono {m : Memory} {lo lo' : Nat} (le : lo ≤ lo') (h : m.wfFrom lo' = true) :
    m.wfFrom lo = true := by
  cases m with
  | nil => rfl
  | cons cell rest =>
    simp only [Memory.wfFrom, Bool.and_eq_true, decide_eq_true_eq] at h ⊢
    exact ⟨⟨⟨le_trans le h.1.1.1, h.1.1.2⟩, h.1.2⟩, h.2⟩

theorem wfFrom_insert {m : Memory} {lo a : Nat} {v : Byte} (ge : lo ≤ a) (lt : a < Memory.size)
    (listed : v ≠ Memory.unlisted) (h : m.wfFrom lo = true) : (m.insert a v).wfFrom lo = true := by
  induction m generalizing lo with
  | nil => simp [Memory.insert, Memory.wfFrom, ge, lt, listed]
  | cons cell rest ih =>
    obtain ⟨b, w⟩ := cell
    simp only [Memory.wfFrom, Bool.and_eq_true, decide_eq_true_eq] at h
    unfold Memory.insert
    split
    · simp only [Memory.wfFrom, Bool.and_eq_true, decide_eq_true_eq]
      exact ⟨⟨⟨ge, lt⟩, listed⟩, ⟨⟨by omega, h.1.1.2⟩, h.1.2⟩, h.2⟩
    · split
      · rename_i here
        subst here
        simp only [Memory.wfFrom, Bool.and_eq_true, decide_eq_true_eq]
        exact ⟨⟨⟨ge, lt⟩, listed⟩, h.2⟩
      · simp only [Memory.wfFrom, Bool.and_eq_true, decide_eq_true_eq]
        exact ⟨h.1, ih (by omega) h.2⟩

theorem wfFrom_erase {m : Memory} {lo : Nat} (a : Nat) (h : m.wfFrom lo = true) :
    (m.erase a).wfFrom lo = true := by
  induction m generalizing lo with
  | nil => rfl
  | cons cell rest ih =>
    obtain ⟨b, w⟩ := cell
    simp only [Memory.wfFrom, Bool.and_eq_true, decide_eq_true_eq] at h
    have tail := ih h.2
    by_cases dropped : b = a
    · have : Memory.erase ((b, w) :: rest) a = Memory.erase rest a := by simp [Memory.erase, dropped]
      rw [this]
      exact wfFrom_mono (by omega) tail
    · have : Memory.erase ((b, w) :: rest) a = (b, w) :: Memory.erase rest a := by
        simp [Memory.erase, dropped]
      rw [this]
      simp only [Memory.wfFrom, Bool.and_eq_true, decide_eq_true_eq]
      exact ⟨h.1, tail⟩

/-- A write inside the buffer keeps the canonical form. -/
theorem wf_write {m : Memory} {a : Nat} {v : Byte} (lt : a < Memory.size) (h : m.wf = true) :
    (m.write a v).wf = true := by
  unfold Memory.write
  split
  · exact wfFrom_erase a h
  · rename_i listed
    exact wfFrom_insert (Nat.zero_le a) lt listed h

/-- A fold of writes at the indices `base + i` reads, at each of them, the byte written there. -/
theorem read_foldl_write (f : Nat → Byte) (base n : Nat) (m : Memory) (a : Nat) :
    ((List.range n).foldl (fun m i => m.write (base + i) (f i)) m).read a =
      if base ≤ a ∧ a < base + n then f (a - base) else m.read a := by
  induction n with
  | zero =>
    have outside : ¬(base ≤ a ∧ a < base + 0) := by omega
    simp only [List.range_zero, List.foldl_nil, if_neg outside]
  | succ n ih =>
    rw [List.range_succ, List.foldl_append, List.foldl_cons, List.foldl_nil, read_write, ih]
    by_cases last : a = base + n
    · subst last
      simp
    · simp only [last, if_false]
      by_cases inside : base ≤ a ∧ a < base + n
      · rw [if_pos inside, if_pos (by omega)]
      · rw [if_neg inside, if_neg (by omega)]

/-- `MemWrite` changes the bytes at `addr .. addr+n-1` and no other (R44). -/
theorem read_memWrite (m : Memory) (addr n v a : Nat) :
    (memWrite m addr n v).read a =
      if addr ≤ a ∧ a < addr + n then beByte n v (a - addr) else m.read a :=
  read_foldl_write (beByte n v) addr n m a

theorem wf_foldl_write (f : Nat → Byte) (base n : Nat) (m : Memory) (fits : base + n ≤ Memory.size)
    (h : m.wf = true) : ((List.range n).foldl (fun m i => m.write (base + i) (f i)) m).wf = true := by
  induction n with
  | zero => exact h
  | succ n ih =>
    rw [List.range_succ, List.foldl_append, List.foldl_cons, List.foldl_nil]
    exact wf_write (by omega) (ih (by omega))

/-- `MemWrite` inside the buffer keeps the canonical form. -/
theorem wf_memWrite {m : Memory} {addr n : Nat} (v : Nat) (fits : addr + n ≤ Memory.size) (h : m.wf = true) :
    (memWrite m addr n v).wf = true :=
  wf_foldl_write (beByte n v) addr n m fits h

theorem memWrite_one (m : Memory) (a v : Nat) : memWrite m a 1 v = m.write a (beByte 1 v 0) := rfl

/-- The zero fill as a fold of writes at `lo + i`. -/
theorem zeroFill_eq (m : Memory) (lo hi : Nat) :
    zeroFill m lo hi = (List.range (hi - lo)).foldl (fun m i => m.write (lo + i) 0x00) m := by
  rw [zeroFill, List.range'_eq_map_range, List.foldl_map]
  rfl

/-- The zero fill writes 0x00 at `lo .. hi-1` and changes no other byte (R167). -/
theorem read_zeroFill (m : Memory) (lo hi a : Nat) :
    (zeroFill m lo hi).read a = if lo ≤ a ∧ a < hi then 0x00 else m.read a := by
  rw [zeroFill_eq, read_foldl_write]
  by_cases inside : lo ≤ a ∧ a < hi
  · rw [if_pos inside, if_pos (by omega)]
  · rw [if_neg inside, if_neg (by omega)]

theorem wf_zeroFill {m : Memory} {lo hi : Nat} (fits : hi ≤ Memory.size) (h : m.wf = true) :
    (zeroFill m lo hi).wf = true := by
  rw [zeroFill_eq]
  by_cases some : lo ≤ hi
  · exact wf_foldl_write _ lo (hi - lo) m (by omega) h
  · have : hi - lo = 0 := by omega
    rw [this]
    exact h

/-- A word of the buffer is its four bytes, the first most significant (R43, R103). -/
theorem memRead_four (m : Memory) (a : Nat) :
    BitVec.ofNat 32 (memRead m a 4) =
      wordOfBytes (m.read a) (m.read (a + 1)) (m.read (a + 2)) (m.read (a + 3)) := by
  apply BitVec.eq_of_toNat_eq
  simp only [memRead, wordOfBytes, List.range_succ, List.range_zero, List.nil_append, List.map_append,
    List.map_cons, List.map_nil, List.sum_append, List.sum_cons, List.sum_nil, BitVec.toNat_append,
    BitVec.toNat_ofNat, Nat.add_zero]
  have b0 := (m.read a).isLt
  have b1 := (m.read (a + 1)).isLt
  have b2 := (m.read (a + 2)).isLt
  have b3 := (m.read (a + 3)).isLt
  rw [← Nat.shiftLeft_add_eq_or_of_lt b1, ← Nat.shiftLeft_add_eq_or_of_lt b2,
    ← Nat.shiftLeft_add_eq_or_of_lt b3]
  simp only [Nat.shiftLeft_eq]
  omega

theorem bufferBlock_get (m : Memory) (t : Nat) (lt : t < 16) :
    (bufferBlock m)[t] = wordOfBytes (m.read (4 * t)) (m.read (4 * t + 1)) (m.read (4 * t + 2))
      (m.read (4 * t + 3)) := by
  simp only [bufferBlock, Vector.getElem_ofFn, memRead_four]

/-- Buffers that read alike below 64 parse alike (R103). -/
theorem bufferBlock_congr {m m' : Memory} (same : ∀ i, i < 64 → m.read i = m'.read i) :
    bufferBlock m = bufferBlock m' := by
  ext t lt
  rw [bufferBlock_get m t lt, bufferBlock_get m' t lt, same _ (by omega), same _ (by omega),
    same _ (by omega), same _ (by omega)]

/-- What FINALIZE's one last block holds, for r at most 55 (R89, R167). -/
theorem read_padLastBlock {r : Nat} (le : r ≤ 55) (buf : Memory) (l a : Nat) (lt : a < 64) :
    (padLastBlock buf r l).read a =
      if a < r then buf.read a else if a = r then 0x80 else if a < 56 then 0x00 else beByte 8 l (a - 56) := by
  simp only [padLastBlock, read_memWrite, read_zeroFill]
  by_cases length : 56 ≤ a
  · rw [if_pos ⟨length, by omega⟩, if_neg (by omega), if_neg (by omega), if_neg (by omega)]
  · rw [if_neg (by omega)]
    by_cases fill : r + 1 ≤ a
    · rw [if_pos ⟨fill, by omega⟩, if_neg (by omega), if_neg (by omega), if_pos (by omega)]
    · rw [if_neg (by omega)]
      by_cases marker : a = r
      · subst marker
        rw [if_pos ⟨le_refl a, by omega⟩, if_neg (by omega), if_pos rfl, Nat.sub_self]
        rfl
      · rw [if_neg (by omega), if_pos (by omega)]

/-- What the first of FINALIZE's two blocks holds, for r at least 56 (R89, R167). -/
theorem read_padFirstOfTwo (buf : Memory) (r a : Nat) (lt : a < 64) :
    (padFirstOfTwo buf r).read a = if a < r then buf.read a else if a = r then 0x80 else 0x00 := by
  simp only [padFirstOfTwo, read_memWrite, read_zeroFill]
  by_cases fill : r + 1 ≤ a
  · rw [if_pos ⟨fill, lt⟩, if_neg (by omega), if_neg (by omega)]
  · rw [if_neg (by omega)]
    by_cases marker : a = r
    · subst marker
      rw [if_pos ⟨le_refl a, by omega⟩, if_neg (by omega), if_pos rfl, Nat.sub_self]
      rfl
    · rw [if_neg (by omega), if_pos (by omega)]

/-- What the second of FINALIZE's two blocks holds (R89, R167). -/
theorem read_padSecondOfTwo (buf : Memory) (l a : Nat) (lt : a < 64) :
    (padSecondOfTwo buf l).read a = if a < 56 then 0x00 else beByte 8 l (a - 56) := by
  simp only [padSecondOfTwo, read_memWrite, read_zeroFill]
  by_cases length : 56 ≤ a
  · rw [if_pos ⟨length, by omega⟩, if_neg (by omega)]
  · rw [if_neg (by omega), if_pos ⟨Nat.zero_le a, by omega⟩, if_pos (by omega)]

theorem wf_padLastBlock {buf : Memory} {r : Nat} (l : Nat) (le : r ≤ 55) (h : buf.wf = true) :
    (padLastBlock buf r l).wf = true :=
  wf_memWrite l (by decide) (wf_zeroFill (by decide) (wf_memWrite _ (by simp [Memory.size]; omega) h))

theorem wf_padFirstOfTwo {buf : Memory} {r : Nat} (lt : r < 64) (h : buf.wf = true) :
    (padFirstOfTwo buf r).wf = true :=
  wf_zeroFill (by decide) (wf_memWrite _ (by simp [Memory.size]; omega) h)

theorem wf_padSecondOfTwo {buf : Memory} (l : Nat) (h : buf.wf = true) : (padSecondOfTwo buf l).wf = true :=
  wf_memWrite l (by decide) (wf_zeroFill (by decide) h)

end Sys2Proof.Machine
end

