-- ==== Sys2Proof/Laws/Operands.lean ====
section
/-! SUPPORT. CNT as arithmetic on LEN. -/

namespace Sys2Proof.Machine

/-- `CNT = (LEN / 8) mod 64` (R23). -/
theorem cnt_eq (s : State) : s.cnt = s.len.toNat / 8 % 64 := by
  simp [State.cnt, BitVec.extractLsb'_toNat, Nat.shiftRight_eq_div_pow]

theorem cnt_lt (s : State) : s.cnt < 64 := by
  rw [cnt_eq]
  exact Nat.mod_lt _ (by decide)

/-- States of one LEN have one CNT. -/
theorem cnt_congr {s t : State} (same : s.len = t.len) : s.cnt = t.cnt := by
  rw [cnt_eq, cnt_eq, same]

/-- LEN after one more byte, as a number (R90). -/
theorem len_add_eight (l : Length) : (l + 8).toNat = (l.toNat + 8) % 2 ^ 64 := BitVec.toNat_add l 8

@[simp] theorem maxLength_toNat : maxLength.toNat = 2 ^ 64 - 8 := by decide

end Sys2Proof.Machine
end

