-- ==== Sys2Proof/Laws/State.lean ====
section
/-! SUPPORT. One lemma for each field of State under each operation of Machine/Ops.lean, true by rfl, so that
no later proof unfolds a record update. The proofs stand in brackets, `(rfl)`, so that simp rewrites with the
lemma itself and the kernel is never asked to compare a whole computed state with its record update. -/

namespace Sys2Proof.Machine

variable (s : State)

@[simp] theorem respond_h (ok : Bool) (data : Word) : (s.respond ok data).h = s.h := (rfl)
@[simp] theorem respond_len (ok : Bool) (data : Word) : (s.respond ok data).len = s.len := (rfl)
@[simp] theorem respond_buf (ok : Bool) (data : Word) : (s.respond ok data).buf = s.buf := (rfl)
@[simp] theorem respond_phase (ok : Bool) (data : Word) : (s.respond ok data).phase = s.phase := (rfl)
@[simp] theorem respond_errCode (ok : Bool) (data : Word) : (s.respond ok data).errCode = s.errCode := (rfl)
@[simp] theorem respond_inbox (ok : Bool) (data : Word) : (s.respond ok data).inbox = s.inbox := (rfl)
@[simp] theorem respond_resp (ok : Bool) (data : Word) : (s.respond ok data).resp = some ⟨ok, data⟩ := (rfl)

@[simp] theorem refuse_h : (s.refuse).h = s.h := (rfl)
@[simp] theorem refuse_len : (s.refuse).len = s.len := (rfl)
@[simp] theorem refuse_buf : (s.refuse).buf = s.buf := (rfl)
@[simp] theorem refuse_phase : (s.refuse).phase = s.phase := (rfl)
@[simp] theorem refuse_errCode : (s.refuse).errCode = s.errCode := (rfl)
@[simp] theorem refuse_inbox : (s.refuse).inbox = s.inbox := (rfl)
@[simp] theorem refuse_resp : (s.refuse).resp = some ⟨false, 0⟩ := (rfl)

@[simp] theorem raiseInputError_h : (s.raiseInputError).h = s.h := (rfl)
@[simp] theorem raiseInputError_len : (s.raiseInputError).len = s.len := (rfl)
@[simp] theorem raiseInputError_buf : (s.raiseInputError).buf = s.buf := (rfl)
@[simp] theorem raiseInputError_phase : (s.raiseInputError).phase = .error := (rfl)
@[simp] theorem raiseInputError_errCode : (s.raiseInputError).errCode = .inputError := (rfl)
@[simp] theorem raiseInputError_inbox : (s.raiseInputError).inbox = s.inbox := (rfl)
@[simp] theorem raiseInputError_resp : (s.raiseInputError).resp = some ⟨false, 0⟩ := (rfl)

@[simp] theorem openMessage_h : (s.openMessage).h = initialHashValues := (rfl)
@[simp] theorem openMessage_len : (s.openMessage).len = 0 := (rfl)
@[simp] theorem openMessage_buf : (s.openMessage).buf = s.buf := (rfl)
@[simp] theorem openMessage_phase : (s.openMessage).phase = .absorbing := (rfl)
@[simp] theorem openMessage_errCode : (s.openMessage).errCode = .noError := (rfl)
@[simp] theorem openMessage_inbox : (s.openMessage).inbox = s.inbox := (rfl)
@[simp] theorem openMessage_resp : (s.openMessage).resp = s.resp := (rfl)

@[simp] theorem takeReset_h : (s.takeReset).h = initialHashValues := (rfl)
@[simp] theorem takeReset_len : (s.takeReset).len = 0 := (rfl)
@[simp] theorem takeReset_buf : (s.takeReset).buf = [] := (rfl)
@[simp] theorem takeReset_phase : (s.takeReset).phase = .absorbing := (rfl)
@[simp] theorem takeReset_errCode : (s.takeReset).errCode = .noError := (rfl)
@[simp] theorem takeReset_inbox : (s.takeReset).inbox = s.inbox := (rfl)
@[simp] theorem takeReset_resp : (s.takeReset).resp = none := (rfl)

@[simp] theorem idle_h : (s.idle).h = s.h := (rfl)
@[simp] theorem idle_len : (s.idle).len = s.len := (rfl)
@[simp] theorem idle_buf : (s.idle).buf = s.buf := (rfl)
@[simp] theorem idle_phase : (s.idle).phase = s.phase := (rfl)
@[simp] theorem idle_errCode : (s.idle).errCode = s.errCode := (rfl)
@[simp] theorem idle_inbox : (s.idle).inbox = s.inbox := (rfl)
@[simp] theorem idle_resp : (s.idle).resp = none := (rfl)

@[simp] theorem setBuf_h (buf : Memory) : (s.setBuf buf).h = s.h := (rfl)
@[simp] theorem setBuf_len (buf : Memory) : (s.setBuf buf).len = s.len := (rfl)
@[simp] theorem setBuf_buf (buf : Memory) : (s.setBuf buf).buf = buf := (rfl)
@[simp] theorem setBuf_phase (buf : Memory) : (s.setBuf buf).phase = s.phase := (rfl)
@[simp] theorem setBuf_errCode (buf : Memory) : (s.setBuf buf).errCode = s.errCode := (rfl)
@[simp] theorem setBuf_inbox (buf : Memory) : (s.setBuf buf).inbox = s.inbox := (rfl)
@[simp] theorem setBuf_resp (buf : Memory) : (s.setBuf buf).resp = s.resp := (rfl)

@[simp] theorem setLen_h (l : Length) : (s.setLen l).h = s.h := (rfl)
@[simp] theorem setLen_len (l : Length) : (s.setLen l).len = l := (rfl)
@[simp] theorem setLen_buf (l : Length) : (s.setLen l).buf = s.buf := (rfl)
@[simp] theorem setLen_phase (l : Length) : (s.setLen l).phase = s.phase := (rfl)
@[simp] theorem setLen_errCode (l : Length) : (s.setLen l).errCode = s.errCode := (rfl)
@[simp] theorem setLen_inbox (l : Length) : (s.setLen l).inbox = s.inbox := (rfl)
@[simp] theorem setLen_resp (l : Length) : (s.setLen l).resp = s.resp := (rfl)

@[simp] theorem setPhase_h (p : Phase) : (s.setPhase p).h = s.h := (rfl)
@[simp] theorem setPhase_len (p : Phase) : (s.setPhase p).len = s.len := (rfl)
@[simp] theorem setPhase_buf (p : Phase) : (s.setPhase p).buf = s.buf := (rfl)
@[simp] theorem setPhase_phase (p : Phase) : (s.setPhase p).phase = p := (rfl)
@[simp] theorem setPhase_errCode (p : Phase) : (s.setPhase p).errCode = s.errCode := (rfl)
@[simp] theorem setPhase_inbox (p : Phase) : (s.setPhase p).inbox = s.inbox := (rfl)
@[simp] theorem setPhase_resp (p : Phase) : (s.setPhase p).resp = s.resp := (rfl)

@[simp] theorem bufWrite_h (addr n v : Nat) : (s.bufWrite addr n v).h = s.h := (rfl)
@[simp] theorem bufWrite_len (addr n v : Nat) : (s.bufWrite addr n v).len = s.len := (rfl)
@[simp] theorem bufWrite_buf (addr n v : Nat) : (s.bufWrite addr n v).buf = memWrite s.buf addr n v := (rfl)
@[simp] theorem bufWrite_phase (addr n v : Nat) : (s.bufWrite addr n v).phase = s.phase := (rfl)
@[simp] theorem bufWrite_errCode (addr n v : Nat) : (s.bufWrite addr n v).errCode = s.errCode := (rfl)
@[simp] theorem bufWrite_inbox (addr n v : Nat) : (s.bufWrite addr n v).inbox = s.inbox := (rfl)
@[simp] theorem bufWrite_resp (addr n v : Nat) : (s.bufWrite addr n v).resp = s.resp := (rfl)

@[simp] theorem processBlock_h : (s.processBlock).h = hashBlock s.h (bufferBlock s.buf) := (rfl)
@[simp] theorem processBlock_len : (s.processBlock).len = s.len := (rfl)
@[simp] theorem processBlock_buf : (s.processBlock).buf = s.buf := (rfl)
@[simp] theorem processBlock_phase : (s.processBlock).phase = s.phase := (rfl)
@[simp] theorem processBlock_errCode : (s.processBlock).errCode = s.errCode := (rfl)
@[simp] theorem processBlock_inbox : (s.processBlock).inbox = s.inbox := (rfl)
@[simp] theorem processBlock_resp : (s.processBlock).resp = s.resp := (rfl)

@[simp] theorem reset_h : State.reset.h = initialHashValues := (rfl)
@[simp] theorem reset_len : State.reset.len = 0 := (rfl)
@[simp] theorem reset_buf : State.reset.buf = [] := (rfl)
@[simp] theorem reset_phase : State.reset.phase = .absorbing := (rfl)
@[simp] theorem reset_errCode : State.reset.errCode = .noError := (rfl)
@[simp] theorem reset_inbox : State.reset.inbox = [] := (rfl)
@[simp] theorem reset_resp : State.reset.resp = none := (rfl)

end Sys2Proof.Machine
end

