-- ==== Sys2Proof/Laws/Commands.lean ====
section
/-! SUPPORT. What each command can answer, once: one inversion lemma a command, and the fields of the states
ABSORB and FINALIZE answer with. -/

namespace Sys2Proof.Machine

/-- INIT has one outcome in every phase (R161). -/
theorem exec_init (arg : BitVec 8) (s : State) :
    exec (.init arg) s = .next (s.openMessage.respond true 0) := rfl

/-- The three outcomes of ABSORB, in the order of R162 and R200. -/
theorem exec_absorb_cases (d : Byte) (s : State) :
    (s.phase ≠ .absorbing ∧ exec (.absorb d) s = .next s.refuse) ∨
    (s.phase = .absorbing ∧ s.len = maxLength ∧ exec (.absorb d) s = .next s.raiseInputError) ∨
    (s.phase = .absorbing ∧ s.len ≠ maxLength ∧ exec (.absorb d) s = .next (s.absorbByte d)) := by
  by_cases opened : s.phase = .absorbing
  · by_cases full : s.len = maxLength
    · exact .inr (.inl ⟨opened, full, by simp [exec, execAbsorb, opened, full]⟩)
    · exact .inr (.inr ⟨opened, full, by simp [exec, execAbsorb, opened, full]⟩)
  · exact .inl ⟨opened, by simp [exec, execAbsorb, opened]⟩

/-- The two outcomes of FINALIZE (R166). -/
theorem exec_finalize_cases (arg : BitVec 8) (s : State) :
    (s.phase ≠ .absorbing ∧ exec (.finalize arg) s = .next s.refuse) ∨
    (s.phase = .absorbing ∧
      exec (.finalize arg) s = .next ((s.padAndProcess.setPhase .done).respond true 0)) := by
  by_cases opened : s.phase = .absorbing
  · exact .inr ⟨opened, by simp [exec, execFinalize, opened]⟩
  · exact .inl ⟨opened, by simp [exec, execFinalize, opened]⟩

/-- The two outcomes of READ (R172). -/
theorem exec_read_cases (argHi : BitVec 5) (k : BitVec 3) (s : State) :
    (s.phase = .done ∧ exec (.read argHi k) s = .next (s.respond true (s.digestWord k))) ∨
    (s.phase ≠ .done ∧ exec (.read argHi k) s = .next s.refuse) := by
  by_cases ready : s.phase = .done
  · exact .inl ⟨ready, by simp [exec, execRead, ready]⟩
  · exact .inr ⟨ready, by simp [exec, execRead, ready]⟩

section absorb
variable (s : State) (d : Byte)

@[simp] theorem absorbByte_len : (s.absorbByte d).len = s.len + 8 := by
  unfold State.absorbByte; simp only []; split <;> rfl

@[simp] theorem absorbByte_phase : (s.absorbByte d).phase = s.phase := by
  unfold State.absorbByte; simp only []; split <;> rfl

@[simp] theorem absorbByte_errCode : (s.absorbByte d).errCode = s.errCode := by
  unfold State.absorbByte; simp only []; split <;> rfl

@[simp] theorem absorbByte_inbox : (s.absorbByte d).inbox = s.inbox := by
  unfold State.absorbByte; simp only []; split <;> rfl

@[simp] theorem absorbByte_resp : (s.absorbByte d).resp = some ⟨true, 0⟩ := by
  unfold State.absorbByte; simp only []; split <;> rfl

@[simp] theorem absorbByte_buf : (s.absorbByte d).buf = memWrite s.buf s.cnt 1 d.toNat := by
  unfold State.absorbByte; simp only []; split <;> rfl

/-- The byte is stored at CNT and every other byte is as before (R163). -/
theorem read_absorbByte (a : Nat) :
    (s.absorbByte d).buf.read a = if a = s.cnt then d else s.buf.read a := by
  rw [absorbByte_buf, memWrite_one, read_write]
  simp [beByte]

/-- H changes in the ABSORB that completes a block, and in no other (R163). -/
theorem absorbByte_h :
    (s.absorbByte d).h =
      if s.cnt = 63 then hashBlock s.h (bufferBlock (memWrite s.buf s.cnt 1 d.toNat)) else s.h := by
  unfold State.absorbByte; simp only []; split <;> rfl

end absorb

section finalize
variable (s : State)

@[simp] theorem padAndProcess_len : s.padAndProcess.len = s.len := by
  unfold State.padAndProcess; simp only []; split <;> rfl

@[simp] theorem padAndProcess_phase : s.padAndProcess.phase = s.phase := by
  unfold State.padAndProcess; simp only []; split <;> rfl

@[simp] theorem padAndProcess_errCode : s.padAndProcess.errCode = s.errCode := by
  unfold State.padAndProcess; simp only []; split <;> rfl

@[simp] theorem padAndProcess_inbox : s.padAndProcess.inbox = s.inbox := by
  unfold State.padAndProcess; simp only []; split <;> rfl

/-- One block is processed when CNT is at most 55 (R167). -/
theorem padAndProcess_one (le : s.cnt ≤ 55) :
    s.padAndProcess =
      { s with
        buf := padLastBlock s.buf s.cnt s.len.toNat
        h := hashBlock s.h (bufferBlock (padLastBlock s.buf s.cnt s.len.toNat)) } := by
  simp only [State.padAndProcess, if_pos le, State.processBlock, State.setBuf]

/-- Two blocks are processed when CNT is at least 56 (R167). -/
theorem padAndProcess_two (ge : 56 ≤ s.cnt) :
    s.padAndProcess =
      { s with
        buf := padSecondOfTwo (padFirstOfTwo s.buf s.cnt) s.len.toNat
        h := hashBlock (hashBlock s.h (bufferBlock (padFirstOfTwo s.buf s.cnt)))
          (bufferBlock (padSecondOfTwo (padFirstOfTwo s.buf s.cnt) s.len.toNat)) } := by
  simp only [State.padAndProcess, if_neg (show ¬s.cnt ≤ 55 by omega), State.processBlock, State.setBuf]

theorem wf_padAndProcess (h : s.buf.wf = true) : s.padAndProcess.buf.wf = true := by
  by_cases le : s.cnt ≤ 55
  · rw [padAndProcess_one s le]
    exact wf_padLastBlock _ le h
  · rw [padAndProcess_two s (by omega)]
    exact wf_padSecondOfTwo _ (wf_padFirstOfTwo (cnt_lt s) h)

end finalize

theorem wf_absorbByte (s : State) (d : Byte) (h : s.buf.wf = true) : (s.absorbByte d).buf.wf = true := by
  rw [absorbByte_buf]
  exact wf_memWrite _ (cnt_lt s) h

/-- No command changes what the host has still to present. -/
theorem exec_inbox {i : Instr} {s t : State} (h : exec i s = .next t) : t.inbox = s.inbox := by
  cases i with
  | init arg =>
    rw [exec_init] at h
    cases h
    rfl
  | absorb d =>
    rcases exec_absorb_cases d s with ⟨_, e⟩ | ⟨_, _, e⟩ | ⟨_, _, e⟩ <;> rw [e] at h <;> cases h <;> simp
  | finalize arg =>
    rcases exec_finalize_cases arg s with ⟨_, e⟩ | ⟨_, e⟩ <;> rw [e] at h <;> cases h <;> simp
  | read argHi k =>
    rcases exec_read_cases argHi k s with ⟨_, e⟩ | ⟨_, e⟩ <;> rw [e] at h <;> cases h <;> simp

end Sys2Proof.Machine
end

