-- ==== Sys2Proof/Laws/Constants.lean ====
section
/-! SUPPORT. The table K and the primes of its derivation, read off the rows that hold both. -/

namespace Sys2Proof.Machine

@[simp] theorem derivedConstants_length : derivedConstants.length = 64 := by decide

/-- `K[j]` is the word of row j (R113). -/
theorem roundConstants_getElem (j : Nat) (inTable : j < 64) :
    roundConstants[j] = (derivedConstants[j]'(by simpa using inTable)).word := by
  simp only [roundConstants, Vector.getElem_mk, List.getElem_toArray, List.getElem_map]

/-- `p_j` is the prime of row j (R115). -/
theorem derivationPrimes_getD (j : Nat) (inTable : j < 64) :
    derivationPrimes.getD j 0 = (derivedConstants[j]'(by simpa using inTable)).prime := by
  have inRows : j < (derivedConstants.map (·.prime)).length := by simpa using inTable
  simp only [derivationPrimes, List.getD_eq_getElem _ _ inRows, List.getElem_map]

end Sys2Proof.Machine
end

