-- ==== Sys2Proof/Laws/PerInstr.lean ====
section
/-! SUPPORT. The fields of a command word put together, and the statements made once for each constructor of
`Instr`. -/

namespace Sys2Proof

/-- A word put together from its two fields, as a number (30_encoding.md R60). -/
theorem toNat_opArg (op : BitVec 2) (arg : BitVec 8) :
    (op ++ arg : CmdWord).toNat = 256 * op.toNat + arg.toNat := by
  have joined : (op ++ arg : CmdWord).toNat = op.toNat <<< 8 ||| arg.toNat := BitVec.toNat_append op arg
  rw [joined, ← Nat.shiftLeft_add_eq_or_of_lt arg.isLt, Nat.shiftLeft_eq]
  omega

/-- The op field of a word put together from its two fields (R60). -/
theorem cmdOp_append (op : BitVec 2) (arg : BitVec 8) : cmdOp (op ++ arg) = op := by
  apply BitVec.eq_of_toNat_eq
  rw [cmdOp, BitVec.extractLsb'_toNat, toNat_opArg, Nat.shiftRight_eq_div_pow]
  have := op.isLt
  have := arg.isLt
  omega

/-- The arg field of a word put together from its two fields (R60). -/
theorem cmdArg_append (op : BitVec 2) (arg : BitVec 8) : cmdArg (op ++ arg) = arg := by
  apply BitVec.eq_of_toNat_eq
  rw [cmdArg, BitVec.extractLsb'_toNat, toNat_opArg, Nat.shiftRight_eq_div_pow]
  have := arg.isLt
  omega

end Sys2Proof

namespace Sys2Proof.Laws.OpField

/-- The value of `op` that the operation map gives each command (30_encoding.md R61). -/
def opOf : Instr → BitVec 2
  | .init _ => 0b00
  | .absorb _ => 0b01
  | .finalize _ => 0b10
  | .read _ _ => 0b11

/-- The command's word has its `op` in bits 9:8 (R60, R61). -/
def Statement (i : Instr) : Prop := cmdOp (encode i) = opOf i

theorem init (arg : BitVec 8) : Statement (.init arg) := cmdOp_append _ _

theorem absorb (d : Byte) : Statement (.absorb d) := cmdOp_append _ _

theorem finalize (arg : BitVec 8) : Statement (.finalize arg) := cmdOp_append _ _

theorem read (argHi : BitVec 5) (k : BitVec 3) : Statement (.read argHi k) := cmdOp_append _ (argHi ++ k)

end Sys2Proof.Laws.OpField
end

