-- ==== Sys2Proof/Laws/Step.lean ====
section
/-! SUPPORT. What one step can do, once. -/

namespace Sys2Proof.Machine

theorem step_nil {s : State} (h : s.inbox = []) : step s = .next s.idle := by
  simp only [step, State.takeInput, h]

theorem step_reset {s : State} {rest : List HostInput} (h : s.inbox = .reset :: rest) :
    step s = .next { s with inbox := rest }.takeReset := by
  simp only [step, State.takeInput, h]

theorem step_cmd {s : State} {w : CmdWord} {rest : List HostInput} (h : s.inbox = .cmd w :: rest) :
    step s = exec (decode w) { s with inbox := rest } := by
  simp only [step, State.takeInput, h]

/-- A step is idle, takes a RESET, or runs the command of the next word. -/
theorem step_cases {s t : State} (h : step s = .next t) :
    (s.inbox = [] ∧ t = s.idle) ∨
    (∃ rest, s.inbox = .reset :: rest ∧ t = { s with inbox := rest }.takeReset) ∨
    (∃ w rest, s.inbox = .cmd w :: rest ∧ exec (decode w) { s with inbox := rest } = .next t) := by
  match offered : s.inbox with
  | [] =>
    rw [step_nil offered] at h
    cases h
    exact .inl ⟨rfl, rfl⟩
  | .reset :: rest =>
    rw [step_reset offered] at h
    cases h
    exact .inr (.inl ⟨rest, rfl, rfl⟩)
  | .cmd w :: rest =>
    rw [step_cmd offered] at h
    exact .inr (.inr ⟨w, rest, rfl, h⟩)

end Sys2Proof.Machine
end

