-- ==== Sys2Proof/Laws/Run.lean ====
section
/-! SUPPORT. Runs of steps, one step at a time, and the chain of blocks, one block at a time. -/

namespace Sys2Proof.Machine

@[simp] theorem runSteps_zero (s : State) : runSteps 0 s = .next s := (rfl)

/-- A run whose first step answers u goes on from u. -/
theorem runSteps_succ {s u : State} (n : Nat) (h : step s = .next u) : runSteps (n + 1) s = runSteps n u := by
  simp only [runSteps, h]

/-- A run of one more step is the step after the run. -/
theorem runSteps_succ_last {s u : State} (n : Nat) (h : runSteps n s = .next u) :
    runSteps (n + 1) s = step u := by
  induction n generalizing s with
  | zero =>
    cases h
    unfold runSteps
    cases step u <;> rfl
  | succ n ih =>
    unfold runSteps at h ⊢
    cases first : step s with
    | next v =>
      simp only [first] at h ⊢
      exact ih h
    | fault r =>
      simp only [first] at h
      cases h
    | refused r =>
      simp only [first] at h
      cases h

/-- The run is the host's run of the core. -/
theorem runSteps_eq_run (n : Nat) (s : State) : runSteps n s = Sys2Proof.core.run n s := by
  induction n generalizing s with
  | zero => rfl
  | succ n ih =>
    refine Eq.trans ?_ (Host.Core.run.eq_def Sys2Proof.core (n + 1) s).symm
    have same : Sys2Proof.core.step s = step s := rfl
    unfold runSteps
    simp only [same]
    cases step s with
    | next t => exact ih t
    | fault r => rfl
    | refused r => rfl

@[simp] theorem hashBlocks_nil (st : HashWords) : hashBlocks st [] = st := (rfl)

theorem hashBlocks_append (st : HashWords) (bs cs : List Block) :
    hashBlocks st (bs ++ cs) = hashBlocks (hashBlocks st bs) cs := List.foldl_append

theorem hashBlocks_singleton (st : HashWords) (b : Block) : hashBlocks st [b] = hashBlock st b := (rfl)

/-- The chain over one more block (R146, R177). -/
theorem messageChain_succ (m : List Byte) (q : Nat) :
    messageChain m (q + 1) = hashBlock (messageChain m q) (messageBlock m q) := by
  rw [messageChain, List.range_succ, List.map_append, hashBlocks_append]
  exact hashBlocks_singleton _ _

/-- A byte of a message is not changed by what follows the message. -/
theorem getD_append_of_lt {m : List Byte} (more : List Byte) {i : Nat} (within : i < m.length) :
    (m ++ more).getD i 0 = m.getD i 0 := by
  rw [List.getD_eq_getElem?_getD, List.getD_eq_getElem?_getD, List.getElem?_append_left within]

/-- A word of a message's block, from its four bytes (R177). -/
theorem messageBlock_get (m : List Byte) (b t : Nat) (lt : t < 16) :
    (messageBlock m b)[t] = wordOfBytes (m.getD (64 * b + 4 * t) 0) (m.getD (64 * b + 4 * t + 1) 0)
      (m.getD (64 * b + 4 * t + 2) 0) (m.getD (64 * b + 4 * t + 3) 0) := by
  simp only [messageBlock, Vector.getElem_ofFn]

/-- Nor is a whole block. -/
theorem messageBlock_append (m more : List Byte) (b : Nat) (within : 64 * (b + 1) ≤ m.length) :
    messageBlock (m ++ more) b = messageBlock m b := by
  ext t lt
  rw [messageBlock_get _ _ _ lt, messageBlock_get _ _ _ lt]
  have below : 64 * b + 4 * t + 3 < m.length := by omega
  rw [getD_append_of_lt more (show 64 * b + 4 * t < m.length by omega),
    getD_append_of_lt more (show 64 * b + 4 * t + 1 < m.length by omega),
    getD_append_of_lt more (show 64 * b + 4 * t + 2 < m.length by omega), getD_append_of_lt more below]

/-- Nor is the chain over the whole blocks. -/
theorem messageChain_append (m more : List Byte) (q : Nat) (within : 64 * q ≤ m.length) :
    messageChain (m ++ more) q = messageChain m q := by
  induction q with
  | zero => rfl
  | succ q ih =>
    rw [messageChain_succ, messageChain_succ, ih (by omega), messageBlock_append m more q (by omega)]

end Sys2Proof.Machine
end

