-- ==== Sys2Proof/Tests/Slice0.lean ====
section
/-! SUPPORT. Tests of the model, each with the place of spec/ its expected value comes from, and for each
statement with hypotheses a witness: a concrete state and operands that meet all of them. -/

namespace Sys2Proof.Machine

/-- The next state of an outcome. -/
def nextOf : Host.Outcome State Fault Refusal → Option State
  | .next t => some t
  | .fault _ => none
  | .refused _ => none

/-- A state with a length and a buffer, H and the rest as after RESET. -/
def opened (len : Length) (bytes : List Byte) : State :=
  { State.reset with len := len, buf := (List.range bytes.length).foldl (fun m i => m.write i (bytes.getD i 0)) [] }

/-- A state in PHASE = DONE with eight distinct digest words. -/
def finished : State := { State.reset with h := #v[10, 11, 12, 13, 14, 15, 16, 17], phase := .done }

/-- A state in PHASE = ERROR (95_test_vectors.md P6). -/
def failed : State := { State.reset with phase := .error, errCode := .inputError, len := maxLength }

/-! ## WellFormed: an ill-formed term for each check -/

theorem test_wf_refuses_number_of_eleven_bits : wfCommandNumber 1024 = false := by decide
theorem test_wf_admits_largest_word : wfCommandNumber 1023 = true := by decide
theorem test_wf_refuses_byte_of_three_digits : (AsmLine.absorb 256).wf = false := by decide
theorem test_wf_refuses_repeated_byte_of_three_digits : (AsmLine.absorbN 256 2).wf = false := by decide
theorem test_wf_refuses_index_eight : (AsmLine.read 8).wf = false := by decide
theorem test_wf_refuses_text_beyond_ascii : (AsmLine.absorbs ['a', 'é']).wf = false := by decide
theorem test_wf_refuses_hash_beyond_ascii : (AsmLine.hash ['é']).wf = false := by decide
theorem test_canonical_refuses_ignored_bits :
    [Instr.init 1, .finalize 0xa5, .read 1 0].map Instr.canonical = [false, false, false] := by decide

/-! ## Decode: each constructor by a word written out from 30_encoding.md R60, R61 -/

theorem test_decode_init : decode 0b0011111111 = .init 0xff := by decide
theorem test_decode_absorb : decode 0b0101100001 = .absorb 0x61 := by decide
theorem test_decode_finalize : decode 0b1010100101 = .finalize 0xa5 := by decide
theorem test_decode_read : decode 0b1111111011 = .read 0b11111 3 := by decide
theorem test_decode_refuses_wide_number : decodeNumber 0x400 = .error .moreThanTenBits := by decide
theorem test_decode_table_word : decodeTableWord 16 0x161 = some (.absorb 0x61) := by decide
theorem test_encode_read : encode (.read 0 4) = 0x304 := by decide

/-! ## The functions (43_message_scheduler.md R122, R123; 44_compressor.md R135 to R145; 95_test_vectors.md) -/

theorem test_s0 : s0 0x61626380 = 0x940e90ef := by decide
theorem test_s1 : s1 0x00000018 = 0x000f0000 := by decide
theorem test_bigS0 : bigS0 0x6a09e667 = 0xce20b47e := by decide
theorem test_bigS1 : bigS1 0x510e527f = 0x3587272b := by decide
theorem test_ch : ch 0x510e527f 0x9b05688c 0x1f83d9ab = 0x1f85c98c := by decide
theorem test_maj : maj 0x6a09e667 0xbb67ae85 0x3c6ef372 = 0x3a6fe667 := by decide

/-- R145 (b): one round on all-ones registers and words. -/
theorem test_round_all_ones :
    let ones : Word := 0xffffffff
    oneRound ⟨ones, ones, ones, ones, ones, ones, ones, ones⟩ ones ones =
      ⟨0xfffffff9, ones, ones, ones, 0xfffffffa, ones, ones, ones⟩ := by decide

/-- The block of "abc" (R100). -/
def abcBlock : Block := #v[0x61626380, 0, 0, 0, 0, 0, 0, 0, 0, 0, 0, 0, 0, 0, 0, 0x00000018]

/-- 95_test_vectors.md section 5.1, `W[18]` and `W[63]`. -/
theorem test_expand : (expand abcBlock)[18] = 0x7da86405 ∧ (expand abcBlock)[63] = 0x12b1edeb := by
  decide +kernel

/-- 40_padder.md R86: z for n = 55, 56, 64, 119, and k for their bit lengths. -/
theorem test_padding_lengths :
    [55, 56, 64, 119].map padZeroBytes = [0, 63, 55, 0] ∧
    [440, 448, 512, 952].map padZeroBits = [7, 511, 447, 7] := by decide

/-- 41_block_parser.md R105 (d). -/
theorem test_parse_byte_order : (bufferBlock (opened 32 [1, 2, 3, 4]).buf)[0] = 0x01020304 := by
  decide +kernel

/-- R150's example of a leading zero. -/
theorem test_hex_leading_zero : hexOfWord 0x0fc19dc6 = ['0', 'f', 'c', '1', '9', 'd', 'c', '6'] := by decide

/-! ## The commands, one step each (95_test_vectors.md section 7) -/

/-- `0x0ff` in ERROR: INIT with ignored bits set. -/
theorem test_init_leaves_error :
    (nextOf (step (failed.withFetchWord 16 0x0ff))).map (fun t => (t.status, t.h, t.len, t.resp)) =
      some (0b0000, initialHashValues, 0, some ⟨true, 0⟩) := by decide

/-- INIT does not write BUF (R161). -/
theorem test_init_keeps_buffer :
    (nextOf (step ((opened 16 [7, 8]).withFetchWord 16 0x000))).map (·.buf) = some [(0, 7), (1, 8)] := by decide

/-- Section 6.4: the 64th byte of 64 bytes 0x61 processes the block. -/
theorem test_absorb_completes_block :
    (nextOf (step ((opened 504 (List.replicate 63 0x61)).withFetchWord 16 0x161))).map
      (fun t => (t.h, t.len, t.cnt, t.resp)) =
      some (#v[0xdf5bb81c, 0xe81e0626, 0xfb45a894, 0x4fd40f31, 0xb25e6816, 0xd6d499c1, 0xab904929, 0x00635e66],
        512, 0, some ⟨true, 0⟩) := by decide +kernel

/-- `0x1bb` at LEN = 2^64-8 (P6). -/
theorem test_absorb_raises_input_error :
    (nextOf (step ((opened 0xfffffffffffffff8 [1]).withFetchWord 16 0x1bb))).map
      (fun t => (t.status, t.len, t.buf, t.resp)) =
      some (0b0110, 0xfffffffffffffff8, [(0, 1)], some ⟨false, 0⟩) := by decide

/-- Section 5.1: FINALIZE after "abc". -/
theorem test_finalize_abc :
    (nextOf (step ((opened 24 [0x61, 0x62, 0x63]).withFetchWord 16 0x2a5))).map (fun t => (t.h, t.status)) =
      some (#v[0xba7816bf, 0x8f01cfea, 0x414140de, 0x5dae2223, 0xb00361a3, 0x96177a9c, 0xb410ff61, 0xf20015ad],
        0b0001) := by decide +kernel

/-- Section 7: the two blocks of the largest length field, from the constructed state. -/
theorem test_finalize_largest_length :
    (nextOf (step ((opened 0xfffffffffffffff8 (List.replicate 63 0x00)).withFetchWord 16 0x200))).map (·.h) =
      some #v[0xfd4b187d, 0x978e53ac, 0x38a3e4ca, 0x1cdb558d, 0x9fefb1f7, 0x5ce00a7f, 0xc5f3ed69, 0x7823ab38] := by
  decide +kernel

/-- `0x3ff` in DONE: READ 7 with ignored bits set. -/
theorem test_read_word_seven :
    (nextOf (step (finished.withFetchWord 16 0x3ff))).map (·.resp) = some (some ⟨true, 17⟩) := by decide

/-- `0x300` after RESET is refused although H holds H0. -/
theorem test_read_refused_after_reset :
    (nextOf (step (State.reset.withFetchWord 16 0x300))).map (·.resp) = some (some ⟨false, 0⟩) := by decide

/-! ## Witnesses: the hypotheses of each statement can be met -/

theorem witness_TableWordsAreReadWithinTenBits : 1024 ≤ 0x400 % 2 ^ 16 ∧ 10 ≤ 16 := by decide

theorem witness_StepRunsTheDecodedCommand :
    { State.reset with inbox := [.cmd 0x161, .reset] }.inbox = .cmd 0x161 :: [.reset] := by decide

/-- READ 0 and READ 0 with ignored bits set, INIT and INIT with ignored bits set. -/
theorem witness_IgnoredBitsNeverMatter :
    (cmdOp 0x300 = cmdOp 0x3f8 ∧ cmdOp 0x300 = 0b11 ∧
      argLowThree (cmdArg 0x300) = argLowThree (cmdArg 0x3f8) ∧ cmdOp 0x300 ≠ 0b01) ∧
    (cmdOp 0x000 = cmdOp 0x0ff ∧ cmdOp 0x000 ≠ 0b01 ∧ cmdOp 0x000 ≠ 0b11) ∧
    (cmdOp 0x161 = 0b01 ∧ cmdArg 0x161 = cmdArg 0x161) := by decide

theorem witness_ResetStepOpensANewMessage : { finished with inbox := [.reset] }.inbox = .reset :: [] := by decide

theorem witness_IdleStepHoldsTheState : finished.inbox = [] := by decide

theorem witness_InitAndResetLeaveTheSameState :
    decode 0x0ff = .init 0xff ∧ (nextOf (step { failed with inbox := [.cmd 0x0ff] })).isSome ∧
    (nextOf (step { failed with inbox := [.reset] })).isSome := by decide

/-- The largest admitted length, a CNT below 63, and CNT = 63. -/
theorem witness_AbsorbAppendsAByte :
    ((opened 0xfffffffffffffff0 []).phase = .absorbing ∧
      (opened 0xfffffffffffffff0 []).len.toNat ≤ 2 ^ 64 - 16 ∧ (opened 0xfffffffffffffff0 []).cnt = 62) ∧
    ((opened 504 []).phase = .absorbing ∧ (opened 504 []).len.toNat ≤ 2 ^ 64 - 16 ∧ (opened 504 []).cnt = 63) := by
  decide

theorem witness_AbsorbAtTheLargestLengthRaisesInputError :
    (opened 0xfffffffffffffff8 []).phase = .absorbing ∧
    (opened 0xfffffffffffffff8 []).len.toNat = 2 ^ 64 - 8 := by decide

theorem witness_RefusedCommandsChangeNothing :
    finished.phase = .done ∧ failed.phase = .error ∧ State.reset.phase = .absorbing := by decide

/-- CNT = 55, the fullest single block, and CNT = 56, the first case of two. -/
theorem witness_FinalizePadsAndProcessesTheLastBlocks :
    ((opened 440 []).phase = .absorbing ∧ (opened 440 []).cnt = 55) ∧
    ((opened 448 []).phase = .absorbing ∧ (opened 448 []).cnt = 56) := by decide

theorem witness_ReadAnswersTheDigestWord : finished.phase = .done ∧ failed.phase ≠ .done := by decide

theorem witness_StatusTakesOneValueForEachPhase :
    State.reset.Inv ∧ finished.Inv ∧ failed.Inv := by decide

theorem witness_EveryStepKeepsTheInvariant :
    (opened 16 [7, 8]).Inv ∧ (nextOf (step ((opened 16 [7, 8]).withFetchWord 16 0x109))).isSome := by decide

theorem witness_PhaseChangesOnlyAsListed :
    { finished with inbox := [.reset] }.inbox = .reset :: [] ∧
    (nextOf (step { finished with inbox := [.reset] })).isSome ∧
    finished.inbox = [] ∧ (nextOf (step finished)).isSome := by decide

theorem witness_HashStateIsWrittenOnlyByItsWriters :
    ((nextOf (step { finished with inbox := [.reset] })).map fun t => t.h == finished.h) = some false := by decide

theorem witness_LengthNeverWraps :
    (opened 16 [7, 8]).Inv ∧
    ((nextOf (step ((opened 16 [7, 8]).withFetchWord 16 0x109))).map fun t => t.len.toNat) = some 24 := by decide

theorem witness_OnlyDigestWordsAreSurfaced :
    ((nextOf (step { finished with inbox := [.cmd 0x300] })).map (·.resp)) = some (some ⟨true, 10⟩) ∧
    (10 : Word) ≠ 0 := by decide

/-- Two states that differ in a byte at CNT, and the one's step. -/
theorem witness_UnwrittenBufferBytesNeverMatter :
    (opened 8 [1, 2]).AgreeWhereMeaningful (opened 8 [1, 3]) ∧ (opened 8 [1, 2]).buf ≠ (opened 8 [1, 3]).buf ∧
    (nextOf (step (opened 8 [1, 2]))).isSome := by
  refine ⟨⟨rfl, rfl, rfl, rfl, rfl, rfl, ?_⟩, by decide, by decide⟩
  intro _ i below
  have : i = 0 := by
    have one : (opened 8 [1, 2]).cnt = 1 := by decide
    omega
  subst this
  decide

theorem witness_ClosedPhaseLastsUntilANewMessage :
    ({ failed with inbox := [.cmd 0x1cc, .cmd 0x200, .cmd 0x300, .reset] }.phase ≠ .absorbing) ∧
    ∀ input ∈ ({ failed with inbox := [.cmd 0x1cc, .cmd 0x200, .cmd 0x300, .reset] }).inbox.take 3,
      startsMessage input = false := by decide

/-- The last eight bytes of the buffer and the largest length. -/
theorem witness_BufferReadsBackWhatWasWritten : 56 + 8 ≤ 64 ∧ 2 ^ 64 - 8 < 2 ^ (8 * 8) := by decide

theorem witness_RotationAndShiftMoveBits : (0 < 1 ∧ 1 < 32) ∧ (0 < 31 ∧ 31 < 32) := by decide

theorem witness_PadUsesTheLeastNumberOfZeros :
    8 * (List.replicate 56 (0x61 : Byte)).length < 2 ^ 64 ∧
    2 ^ 64 ≤ 8 * (List.replicate (2 ^ 61) (0x61 : Byte)).length := by
  simp only [List.length_replicate]
  decide

theorem witness_PaddingDeterminesTheMessage :
    8 * ([0x80] : List Byte).length < 2 ^ 64 ∧ 8 * ([] : List Byte).length < 2 ^ 64 ∧
    paddedBits [0x80] = paddedBits [0x80] := ⟨by decide, by decide, rfl⟩

theorem witness_ParseLosesNoBits : (List.replicate 512 true).length % 512 = 0 := by
  simp only [List.length_replicate]

theorem witness_ParsedWordsAreBigEndian : 64 * (0 + 1) ≤ (List.replicate 64 (0x61 : Byte)).length := by
  simp only [List.length_replicate]
  decide

theorem witness_InternalInvariantIsNeverViolated :
    [true].length % 512 ≠ 0 ∧ State.reset.errCode ≠ .internalInvariantViolation ∧
    (nextOf (step State.reset)).isSome := by decide

theorem witness_Sha256FailsExactlyOnOverlongMessages :
    ([] : List Byte).length < 2 ^ 61 ∧ 2 ^ 61 ≤ (List.replicate (2 ^ 61) (0 : Byte)).length := by
  simp only [List.length_replicate]
  decide

theorem witness_NewMessageIsEmpty :
    { failed with inbox := [.cmd 0x0ff] }.inbox = .cmd 0x0ff :: [] ∧ startsMessage (.cmd 0x0ff) = true ∧
    startsMessage .reset = true ∧ (nextOf (step { failed with inbox := [.cmd 0x0ff] })).isSome := by decide

/-- The state after RESET stands for the empty message; one with two bytes stands for them. -/
theorem witness_AbsorbExtendsTheHeldMessage :
    State.reset.Holds [] ∧ (opened 16 [7, 8]).Holds [7, 8] ∧ ([7, 8] : List Byte).length + 1 ≤ 2 ^ 61 - 1 := by
  refine ⟨⟨rfl, rfl, ?_, rfl⟩, ⟨rfl, rfl, ?_, rfl⟩, by decide⟩
  · intro i below
    exact absurd below (Nat.not_lt_zero i)
  · intro i below
    have : i = 0 ∨ i = 1 := by
      simp at below
      omega
    rcases this with rfl | rfl <;> decide

theorem witness_FinalizeHashesTheHeldMessage : (opened 16 [7, 8]).Holds [7, 8] :=
  witness_AbsorbExtendsTheHeldMessage.2.1

theorem witness_CommandSequenceComputesSha256 :
    ([0x61] : List Byte).length ≤ 2 ^ 61 - 1 ∧
    { failed with inbox := [.cmd 0x000, .cmd 0x161, .cmd 0x200, .cmd 0x300] }.inbox =
      hashProgram [0x61] ++ [.cmd 0x300] ∧
    { failed with inbox := [.reset, .cmd 0x161, .cmd 0x200, .cmd 0x300] }.inbox =
      .reset :: (absorbAll [0x61] ++ .cmd finalizeWord :: [.cmd 0x300]) := by decide

theorem witness_OverlongMessageEndsInError :
    2 ^ 61 ≤ (List.replicate (2 ^ 61) (0 : Byte)).length ∧
    { State.reset with inbox := hashProgram (List.replicate (2 ^ 61) 0) ++ [] }.inbox =
      hashProgram (List.replicate (2 ^ 61) 0) ++ [] := by
  refine ⟨?_, rfl⟩
  simp only [List.length_replicate]
  decide

theorem witness_PseudoCommandsExpandAsListed :
    (∀ c ∈ ['a', 'b', 'c'], c.toNat < 128) ∧ (0xff : Nat) < 256 ∧ (AsmLine.read 8).wf = false := by
  refine ⟨?_, by decide, by decide⟩
  intro c among
  simp only [List.mem_cons, List.not_mem_nil, or_false] at among
  rcases among with rfl | rfl | rfl <;> decide

/-! The statements whose only hypotheses bound an index: the index at the ends of its range. -/

theorem witness_ScheduleMixingFunctionsBitByBit : 0 < 32 ∧ 28 ≤ 28 ∧ ¬29 ≤ 28 ∧ 21 ≤ 21 ∧ ¬22 ≤ 21 ∧ 31 < 32 := by
  decide

theorem witness_RoundMixingFunctionsBitByBit : 0 < 32 ∧ 31 < 32 := by decide

theorem witness_ScheduleFollowsTheRecurrence :
    (0 < 16 ∧ 15 < 16) ∧ (16 ≤ 16 ∧ 16 < 64) ∧ (16 ≤ 63 ∧ 63 < 64) := by decide

theorem witness_ScheduleWindowYieldsTheSameWords : (0 ≤ 48 ∧ 0 < 16) ∧ (48 ≤ 48 ∧ 15 < 16) := by decide

theorem witness_CompressIsSixtyFourRoundsAndFeedForward : 0 < 64 ∧ 63 < 64 := by decide

theorem witness_TablesFollowTheIntegerDerivation : (0 < 8 ∧ 7 < 8) ∧ (0 < 64 ∧ 63 < 64) := by decide

theorem witness_TablesAreFractionalPartsOfRoots : (0 < 8 ∧ 7 < 8) ∧ (0 < 64 ∧ 63 < 64) := by decide

theorem witness_HexRenderingHasSixtyFourDigits : (0 < 8 ∧ 7 < 8) ∧ hexChars #v[0, 1, 2, 3, 4, 5, 6, 7] =
    hexChars #v[0, 1, 2, 3, 4, 5, 6, 7] := ⟨by decide, rfl⟩

end Sys2Proof.Machine
end

section
/-! SUPPORT. The bits of STATUS (10_state.md R29). -/

namespace Sys2Proof.Machine

theorem digestValid_iff (s : State) : s.digestValid = true ↔ s.phase = .done := by
  rw [State.digestValid, beq_iff_eq]

theorem errorFlag_iff (s : State) : s.errorFlag = true ↔ s.phase = .error := by
  rw [State.errorFlag, beq_iff_eq]

/-- Bit 0 of STATUS is DIGEST_VALID (R29). -/
theorem status_getLsbD_zero (s : State) : s.status.getLsbD 0 = s.digestValid := by
  rw [State.status, BitVec.getLsbD_append, BitVec.getLsbD_append]
  simp

/-- Bit 1 of STATUS is ERROR (R29). -/
theorem status_getLsbD_one (s : State) : s.status.getLsbD 1 = s.errorFlag := by
  rw [State.status, BitVec.getLsbD_append, BitVec.getLsbD_append]
  simp

/-- Bits 3:2 of STATUS are ERRCODE (R29). -/
@[simp] theorem status_extractLsb'_errCode (s : State) : s.status.extractLsb' 2 2 = s.errCode.code :=
  BitVec.extractLsb'_append_eq_left

end Sys2Proof.Machine

open Sys2Proof Sys2Proof.Machine

/-- Settles O19: each bit of STATUS is one flag, and PHASE has one value at a time. -/
theorem statusBitsFollowPhaseAndErrcode : Obligations.StatusBitsFollowPhaseAndErrcode := by
  intro s
  have valid : s.status.getLsbD 0 = true ↔ s.phase = .done := by
    rw [status_getLsbD_zero, digestValid_iff]
  have inError : s.status.getLsbD 1 = true ↔ s.phase = .error := by
    rw [status_getLsbD_one, errorFlag_iff]
  refine ⟨valid, inError, status_extractLsb'_errCode s, ?_⟩
  rintro ⟨bit0, bit1⟩
  have done : s.phase = .done := valid.mp bit0
  have error : s.phase = .error := inError.mp bit1
  exact absurd (done.symm.trans error) (by decide)

end

section
/-! SUPPORT. What `nextPhase` gives for each command, and that a command and a step leave exactly that PHASE
(10_state.md R26, 45_commands.md R174). -/

namespace Sys2Proof.Machine

/-- The code 3 of PHASE is taken by no phase (R26). -/
theorem phase_code_ne_three (phase : Phase) : phase.code ≠ 3 := by
  cases phase <;> decide

section nextPhase
variable {phase : Phase} {len : Length} {w : CmdWord}

@[simp] theorem nextPhase_reset : nextPhase phase len .reset = .absorbing := (rfl)

theorem nextPhase_init {arg : BitVec 8} (isInit : decode w = .init arg) :
    nextPhase phase len (.cmd w) = .absorbing := by
  simp only [nextPhase, isInit]

/-- A closed PHASE is left by INIT only, of all commands (R26). -/
theorem nextPhase_of_closed (closed : phase ≠ .absorbing) (notInit : ∀ arg, decode w ≠ .init arg) :
    nextPhase phase len (.cmd w) = phase := by
  cases phase with
  | absorbing => exact absurd rfl closed
  | done => simp only [nextPhase]
  | error => simp only [nextPhase]

theorem nextPhase_absorb {d : Byte} (isAbsorb : decode w = .absorb d) :
    nextPhase .absorbing len (.cmd w) = if len = maxLength then .error else .absorbing := by
  simp only [nextPhase, isAbsorb]

theorem nextPhase_finalize {arg : BitVec 8} (isFinalize : decode w = .finalize arg) :
    nextPhase .absorbing len (.cmd w) = .done := by
  simp only [nextPhase, isFinalize]

theorem nextPhase_read {argHi : BitVec 5} {k : BitVec 3} (isRead : decode w = .read argHi k) :
    nextPhase phase len (.cmd w) = phase := by
  cases phase <;> simp only [nextPhase, isRead]

end nextPhase

/-- Each command leaves the PHASE that the table of R174 gives for its word. -/
theorem exec_decode_phase {w : CmdWord} {s t : State} (h : exec (decode w) s = .next t) :
    t.phase = nextPhase s.phase s.len (.cmd w) := by
  cases command : decode w with
  | init arg =>
    rw [command, exec_init] at h
    cases h
    simp [nextPhase_init command]
  | absorb d =>
    rw [command] at h
    rcases exec_absorb_cases d s with ⟨closed, e⟩ | ⟨opened, full, e⟩ | ⟨opened, room, e⟩ <;>
      rw [e] at h <;> cases h
    · simp [nextPhase_of_closed closed, command]
    · simp [opened, full, nextPhase_absorb command]
    · simp [opened, room, nextPhase_absorb command]
  | finalize arg =>
    rw [command] at h
    rcases exec_finalize_cases arg s with ⟨closed, e⟩ | ⟨opened, e⟩ <;> rw [e] at h <;> cases h
    · simp [nextPhase_of_closed closed, command]
    · simp [opened, nextPhase_finalize command]
  | read argHi k =>
    rw [command] at h
    rcases exec_read_cases argHi k s with ⟨_, e⟩ | ⟨_, e⟩ <;> rw [e] at h <;> cases h <;>
      simp [nextPhase_read command]

/-- A step that takes an input leaves the PHASE that R26 and R174 give for it. -/
theorem step_phase_of_input {s t : State} {input : HostInput} {rest : List HostInput}
    (offered : s.inbox = input :: rest) (h : step s = .next t) :
    t.phase = nextPhase s.phase s.len input := by
  cases input with
  | reset =>
    rw [step_reset offered] at h
    cases h
    simp
  | cmd w =>
    rw [step_cmd offered] at h
    exact exec_decode_phase (s := { s with inbox := rest }) h

/-- An idle step keeps PHASE. -/
theorem step_phase_of_nil {s t : State} (nothing : s.inbox = []) (h : step s = .next t) :
    t.phase = s.phase := by
  rw [step_nil nothing] at h
  cases h
  simp

end Sys2Proof.Machine

open Sys2Proof Sys2Proof.Machine

/-- Settles O23, by the input the step takes and then by the outcomes of the command. -/
theorem phaseChangesOnlyAsListed : Obligations.PhaseChangesOnlyAsListed :=
  ⟨⟨rfl, rfl, rfl, phase_code_ne_three⟩,
    fun _ _ _ _ offered stepped => step_phase_of_input offered stepped,
    fun _ _ nothing stepped => step_phase_of_nil nothing stepped⟩

end

section
/-! SUPPORT. Bit sequences, most significant bit first (00_scope.md R7): how long they are, where a field of
bits splits, the bits of big-endian bytes (R84), and that a bounded value and a message are recovered from
their bits. -/

namespace Sys2Proof.Machine

@[simp] theorem length_beBits (N v : Nat) : (beBits N v).length = N := by
  rw [beBits, List.length_map, List.length_range]

/-- Sequence bit `i` of `be_N(v)` is bit `N - 1 - i` of `v` (R7, R84). -/
@[simp] theorem getElem_beBits (N v i : Nat) (h : i < (beBits N v).length) :
    (beBits N v)[i] = v.testBit (N - 1 - i) := by
  simp only [beBits, List.getElem_map, List.getElem_range]

@[simp] theorem beBits_of_zero (N : Nat) : beBits N 0 = List.replicate N false := by
  simp [beBits, List.map_const']

/-- A field of bits splits into the bits of the quotient and the low bits. -/
theorem beBits_add (a b v : Nat) : beBits (a + b) v = beBits a (v / 2 ^ b) ++ beBits b v := by
  rw [beBits, List.range_add, List.map_append, List.map_map]
  congr 1
  · refine List.map_congr_left fun i inHigh => ?_
    rw [List.mem_range] at inHigh
    rw [Nat.testBit_div_two_pow]
    congr 1
    omega
  · refine List.map_congr_left fun i _ => ?_
    rw [Function.comp_apply, show a + b - 1 - (a + i) = b - 1 - i by omega]

/-- Only the low `N` bits of a value stand in a field of `N` bits. -/
theorem beBits_mod (N v : Nat) : beBits N (v % 2 ^ N) = beBits N v := by
  refine List.map_congr_left fun i inField => ?_
  rw [List.mem_range] at inField
  rw [Nat.testBit_mod_two_pow, decide_eq_true (by omega), Bool.true_and]

/-- A value below `2^N` is recovered from its field of `N` bits. -/
theorem eq_of_beBits_eq {N v w : Nat} (hv : v < 2 ^ N) (hw : w < 2 ^ N) (same : beBits N v = beBits N w) :
    v = w := by
  refine Nat.eq_of_testBit_eq fun j => ?_
  rcases Nat.lt_or_ge j N with inField | beyond
  · have bit := List.getElem_of_eq same (i := N - 1 - j) (by rw [length_beBits]; omega)
    rwa [getElem_beBits, getElem_beBits, show N - 1 - (N - 1 - j) = j by omega] at bit
  · have le : 2 ^ N ≤ 2 ^ j := Nat.pow_le_pow_right (by decide) beyond
    rw [Nat.testBit_lt_two_pow (hv.trans_le le), Nat.testBit_lt_two_pow (hw.trans_le le)]

@[simp] theorem bitsOfBytes_nil : bitsOfBytes [] = [] := (rfl)

@[simp] theorem bitsOfBytes_cons (b : Byte) (m : List Byte) :
    bitsOfBytes (b :: m) = beBits 8 b.toNat ++ bitsOfBytes m := List.flatMap_cons

@[simp] theorem bitsOfBytes_append (m m' : List Byte) :
    bitsOfBytes (m ++ m') = bitsOfBytes m ++ bitsOfBytes m' := List.flatMap_append

@[simp] theorem length_bitsOfBytes (m : List Byte) : (bitsOfBytes m).length = 8 * m.length := by
  induction m with
  | nil => rfl
  | cons b m ih => rw [bitsOfBytes_cons, List.length_append, length_beBits, ih, List.length_cons]; omega

@[simp] theorem bitsOfBytes_replicate_zero (z : Nat) :
    bitsOfBytes (List.replicate z 0x00) = List.replicate (8 * z) false := by
  induction z with
  | zero => rfl
  | succ z ih =>
    rw [List.replicate_succ, bitsOfBytes_cons, ih, show (0x00 : Byte).toNat = 0 from rfl,
      beBits_of_zero, List.replicate_append_replicate]
    congr 1
    omega

/-- A message is recovered from its bits. -/
theorem bitsOfBytes_injective : Function.Injective bitsOfBytes := by
  intro m
  induction m with
  | nil =>
    intro m' same
    have lengths := congrArg List.length same
    simp only [length_bitsOfBytes, List.length_nil] at lengths
    exact (List.eq_nil_of_length_eq_zero (by omega)).symm
  | cons b m ih =>
    rintro (_ | ⟨b', m'⟩) same
    · have lengths := congrArg List.length same
      simp at lengths
    · rw [bitsOfBytes_cons, bitsOfBytes_cons] at same
      obtain ⟨first, rest⟩ := List.append_inj same (by rw [length_beBits, length_beBits])
      rw [BitVec.eq_of_toNat_eq (eq_of_beBits_eq b.isLt b'.isLt first), ih rest]

/-- The most significant byte of `n + 1` bytes stands before the `n` bytes of the same value (R44). -/
theorem beBytes_succ (n v : Nat) : beBytes (n + 1) v = beByte (n + 1) v 0 :: beBytes n v := by
  rw [beBytes, List.range_succ_eq_map, List.map_cons, List.map_map, beBytes]
  refine congrArg _ (List.map_congr_left fun i _ => ?_)
  rw [Function.comp_apply, beByte, beByte, show n + 1 - 1 - i.succ = n - 1 - i by omega]

/-- The bits of the `n` bytes of a value are its field of `8n` bits (R84). -/
theorem bitsOfBytes_beBytes (n v : Nat) : bitsOfBytes (beBytes n v) = beBits (8 * n) v := by
  induction n with
  | zero => rfl
  | succ n ih =>
    rw [beBytes_succ, bitsOfBytes_cons, ih, beByte, BitVec.toNat_ofNat, beBits_mod,
      show 8 * (n + 1) = 8 + 8 * n by omega, beBits_add]
    rfl

end Sys2Proof.Machine
end

section
/-! SUPPORT. The numbers of padding bits and bytes (40_padder.md R81 to R83), and the positions of the padded
sequence (R88). -/

namespace Sys2Proof.Machine

/-- With `k` zero bits the length before the length field is 448 modulo 512 (R80). -/
theorem padZeroBits_reaches (l : Nat) : (l + 1 + padZeroBits l) % 512 = 448 := by
  rw [padZeroBits]
  omega

/-- Fewer zero bits do not reach 448 modulo 512 (R80). -/
theorem padZeroBits_least (l k' : Nat) (fewer : k' < padZeroBits l) : (l + 1 + k') % 512 ≠ 448 := by
  rw [padZeroBits] at fewer
  omega

theorem padZeroBits_closedForm (l : Nat) : (padZeroBits l : ℤ) = (447 - (l : ℤ)) % 512 := by
  rw [padZeroBits]
  omega

theorem padZeroBytes_closedForm (n : Nat) : (padZeroBytes n : ℤ) = (55 - (n : ℤ)) % 64 := by
  rw [padZeroBytes]
  omega

/-- For whole bytes the zero bits are seven, the rest of `0x80`, and the bits of the zero bytes (R83). -/
theorem padZeroBits_bytes (n : Nat) : padZeroBits (8 * n) = 7 + 8 * padZeroBytes n := by
  rw [padZeroBits, padZeroBytes]
  omega

/-- The byte form has 64 bytes a block (R83). -/
theorem padZeroBytes_total (n : Nat) : n + 1 + padZeroBytes n + 8 = 64 * ((n + 8) / 64 + 1) := by
  rw [padZeroBytes]
  omega

section
variable (m : List Byte)

theorem length_paddedBits :
    (paddedBits m).length = 8 * m.length + 1 + padZeroBits (8 * m.length) + 64 := by
  simp only [paddedBits, bitLength, List.length_append, List.length_cons, List.length_replicate,
    length_bitsOfBytes, length_beBits]
  omega

/-- The padded length in blocks (R82). -/
theorem length_paddedBits_blocks : (paddedBits m).length = 512 * ((m.length + 8) / 64 + 1) := by
  have total := padZeroBytes_total m.length
  rw [length_paddedBits, padZeroBits_bytes]
  omega

/-- The padded bits are those of the byte form (R83). -/
theorem paddedBits_eq_bitsOfBytes : paddedBits m = bitsOfBytes (paddedBytes m) := by
  have marker : beBits 8 (0x80 : Byte).toNat = true :: List.replicate 7 false := by decide
  rw [paddedBits, paddedBytes, bitsOfBytes_append, bitsOfBytes_append, bitsOfBytes_cons,
    bitsOfBytes_replicate_zero, bitsOfBytes_beBytes, marker, bitLength, padZeroBits_bytes,
    List.cons_append, List.replicate_append_replicate]

/-- The padded bits begin with the message's bits (R88). -/
theorem take_paddedBits : (paddedBits m).take (8 * m.length) = bitsOfBytes m := by
  rw [paddedBits, List.append_assoc, List.take_left' (length_bitsOfBytes m)]

/-- The last 64 padded bits are the length field (R84, R88). -/
theorem drop_paddedBits :
    (paddedBits m).drop ((paddedBits m).length - 64) = beBits 64 (8 * m.length) := by
  rw [paddedBits, bitLength, List.length_append, length_beBits, Nat.add_sub_cancel, List.drop_left]

/-- The bit after the message is the `1` bit (R88). -/
theorem paddedBits_getElem?_marker : (paddedBits m)[8 * m.length]? = some true := by
  rw [paddedBits, List.append_assoc, List.getElem?_append_right (length_bitsOfBytes m).le,
    length_bitsOfBytes, Nat.sub_self]
  rfl

/-- All bits between the `1` bit and the length field are 0 (R88). -/
theorem paddedBits_getElem?_zero {i : Nat} (afterMarker : 8 * m.length < i)
    (beforeLength : i < (paddedBits m).length - 64) : (paddedBits m)[i]? = some false := by
  rw [length_paddedBits] at beforeLength
  obtain ⟨j, rfl⟩ : ∃ j, i = 8 * m.length + (j + 1) := ⟨i - 8 * m.length - 1, by omega⟩
  have inZeros : j < padZeroBits (8 * m.length) := by omega
  rw [paddedBits, List.append_assoc, List.getElem?_append_right (by rw [length_bitsOfBytes]; omega),
    length_bitsOfBytes, Nat.add_sub_cancel_left, List.cons_append, List.getElem?_cons_succ,
    List.getElem?_append_left (by rwa [List.length_replicate, bitLength]), bitLength,
    List.getElem?_replicate_of_lt inZeros]

end

/-- The length field gives the message's length, and with it which of the first bits are the
message's (R88). -/
theorem eq_of_paddedBits_eq {m m' : List Byte} (fits : 8 * m.length < 2 ^ 64) (fits' : 8 * m'.length < 2 ^ 64)
    (same : paddedBits m = paddedBits m') : m = m' := by
  have lengths : 8 * m.length = 8 * m'.length :=
    eq_of_beBits_eq fits fits' (by rw [← drop_paddedBits, ← drop_paddedBits, same])
  exact bitsOfBytes_injective (by rw [← take_paddedBits, ← take_paddedBits, same, lengths])

theorem pad_of_fits {m : List Byte} (fits : 8 * m.length < 2 ^ 64) : pad m = .ok (paddedBits m) := by
  rw [pad, bitLength, if_pos fits]

theorem pad_of_overlong {m : List Byte} (overlong : 2 ^ 64 ≤ 8 * m.length) : pad m = .error .inputError := by
  rw [pad, bitLength, if_neg overlong.not_gt]

end Sys2Proof.Machine

open Sys2Proof Sys2Proof.Machine

/-- Settles O40: the number of zero bits is `padZeroBits`, the residue of `447 - l`. -/
theorem padUsesTheLeastNumberOfZeros : Obligations.PadUsesTheLeastNumberOfZeros := by
  intro m
  refine ⟨pad_of_overlong, fun fits => ⟨padZeroBits (8 * m.length), ?_, padZeroBits_reaches _,
    padZeroBits_least _, ?_, ?_⟩⟩
  · rw [pad_of_fits fits, paddedBits, bitLength, List.append_cons]
  · rw [padZeroBits_closedForm, Nat.cast_mul, Nat.cast_ofNat]
  · rw [padZeroBits_bytes, Nat.add_mul_mod_self_left]

/-- Settles O41: the padded message has `(n + 8) / 64 + 1` blocks, and the other closed forms are that number. -/
theorem paddedLengthIsWholeBlocks : Obligations.PaddedLengthIsWholeBlocks := by
  intro m
  refine ⟨length_paddedBits m, (m.length + 8) / 64 + 1, Nat.le_add_left 1 _, length_paddedBits_blocks m, ?_,
    rfl, ?_⟩ <;> omega

/-- Settles O42: the byte form, whose zero bits are seven of `0x80` and those of the zero bytes. -/
theorem paddedMessageHasTheByteForm : Obligations.PaddedMessageHasTheByteForm := by
  intro m
  refine ⟨?_, padZeroBytes_closedForm m.length, padZeroBytes_total m.length⟩
  rw [paddedBits_eq_bitsOfBytes, paddedBytes, bitLength, List.append_cons]

/-- Settles O43: the parts of the padded sequence by position, then injectivity by the length field. -/
theorem paddingDeterminesTheMessage : Obligations.PaddingDeterminesTheMessage := by
  refine ⟨fun m _ => ⟨?_, ?_, take_paddedBits m, paddedBits_getElem?_marker m, drop_paddedBits m,
    fun _ => paddedBits_getElem?_zero m⟩, fun _ _ => eq_of_paddedBits_eq⟩
  · rw [length_paddedBits]
    exact Nat.add_pos_right _ (by decide)
  · rw [length_paddedBits_blocks, Nat.mul_mod_right]

end

section
/-! SUPPORT. The value of a bit sequence as the inverse of its field of bits (00_scope.md R7), consecutive
chunks of a sequence (41_block_parser.md R100), and the words and blocks that `parse` cuts from a sequence
(R101, R102). -/

namespace Sys2Proof.Machine

theorem val_concat (s : List Bool) (b : Bool) : val (s ++ [b]) = 2 * val s + b.toNat := by
  rw [val, val, List.foldl_append, List.foldl_cons, List.foldl_nil]

/-- The value of two sequences, one after the other: the first is shifted past the second. -/
theorem val_append (s r : List Bool) : val (s ++ r) = val s * 2 ^ r.length + val r := by
  induction r using List.reverseRecOn with
  | nil => rw [List.append_nil, List.length_nil, pow_zero, mul_one]; rfl
  | append_singleton r b ih =>
    rw [← List.append_assoc, val_concat, val_concat, ih, List.length_append, List.length_singleton]
    ring

theorem val_lt (s : List Bool) : val s < 2 ^ s.length := by
  induction s using List.reverseRecOn with
  | nil => exact Nat.one_pos
  | append_singleton s b ih =>
    have bit := Bool.toNat_lt b
    rw [val_concat, List.length_append, List.length_singleton, pow_succ]
    omega

/-- A sequence is the field of bits of its value (R7). -/
theorem beBits_val (s : List Bool) : beBits s.length (val s) = s := by
  induction s using List.reverseRecOn with
  | nil => rfl
  | append_singleton s b ih =>
    have lastBit : beBits 1 (2 * val s + b.toNat) = [b] := by
      cases b <;> simp [beBits, Nat.testBit_zero]
    have otherBits : (2 * val s + b.toNat) / 2 ^ 1 = val s := by
      have bit := Bool.toNat_lt b
      omega
    rw [val_concat, List.length_append, List.length_singleton, beBits_add, otherBits, ih, lastBit]

/-- The value of a field of bits is what of the number fits in the field (R7). -/
theorem val_beBits (N v : Nat) : val (beBits N v) = v % 2 ^ N := by
  have fits := val_lt (beBits N v)
  have fields := beBits_val (beBits N v)
  rw [length_beBits] at fits fields
  exact eq_of_beBits_eq fits (Nat.mod_lt v (Nat.two_pow_pos N)) (by rw [fields, beBits_mod])

/-- One byte more behind a byte sequence shifts its value by eight bits (R101). -/
theorem val_bitsOfBytes_concat (m : List Byte) (b : Byte) :
    val (bitsOfBytes (m ++ [b])) = val (bitsOfBytes m) * 2 ^ 8 + b.toNat := by
  rw [bitsOfBytes_append, bitsOfBytes_cons, bitsOfBytes_nil, List.append_nil, val_append, length_beBits,
    val_beBits, Nat.mod_eq_of_lt b.isLt]

/-- A concatenation as a sum: the left part is shifted past the right. -/
theorem toNat_append_eq_add {m n : Nat} (x : BitVec m) (y : BitVec n) :
    (x ++ y).toNat = x.toNat * 2 ^ n + y.toNat := by
  rw [BitVec.toNat_append, ← Nat.shiftLeft_add_eq_or_of_lt y.isLt, Nat.shiftLeft_eq]

/-- A word is the sum of its four bytes at their places (R101). -/
theorem toNat_wordOfBytes (b0 b1 b2 b3 : Byte) :
    (wordOfBytes b0 b1 b2 b3).toNat =
      b0.toNat * 2 ^ 24 + b1.toNat * 2 ^ 16 + b2.toNat * 2 ^ 8 + b3.toNat := by
  rw [wordOfBytes, toNat_append_eq_add, toNat_append_eq_add, toNat_append_eq_add]
  ring

/-- The bits of four bytes have the value of their word (R101). -/
theorem val_bitsOfBytes_four (b0 b1 b2 b3 : Byte) :
    val (bitsOfBytes [b0, b1, b2, b3]) = (wordOfBytes b0 b1 b2 b3).toNat := by
  change val (bitsOfBytes ([] ++ [b0] ++ [b1] ++ [b2] ++ [b3])) = _
  simp only [val_bitsOfBytes_concat, wordOfBytes, toNat_append_eq_add]
  rw [show val (bitsOfBytes []) = 0 from rfl, zero_mul, zero_add]

/-- The bits of `n` bytes in the middle of a byte sequence stand at eight times their position (R7). -/
theorem take_drop_bitsOfBytes {m : List Byte} {i n : Nat} (within : i + n ≤ m.length) :
    ((bitsOfBytes m).drop (8 * i)).take (8 * n) = bitsOfBytes ((m.drop i).take n) := by
  have before : (bitsOfBytes (m.take i)).length = 8 * i := by
    rw [length_bitsOfBytes, List.length_take, Nat.min_eq_left (by omega)]
  have middle : (bitsOfBytes ((m.drop i).take n)).length = 8 * n := by
    rw [length_bitsOfBytes, List.length_take, List.length_drop, Nat.min_eq_left (by omega)]
  conv_lhs => rw [← List.take_append_drop i m, bitsOfBytes_append, List.drop_left' before,
    ← List.take_append_drop n (m.drop i), bitsOfBytes_append, List.take_left' middle]

/-- Four bytes that stand in a byte sequence, by position. -/
theorem take_four_drop {m : List Byte} {i : Nat} (within : i + 4 ≤ m.length) :
    (m.drop i).take 4 = [m.getD i 0, m.getD (i + 1) 0, m.getD (i + 2) 0, m.getD (i + 3) 0] := by
  rw [List.drop_eq_getElem_cons (by omega), List.drop_eq_getElem_cons (by omega),
    List.drop_eq_getElem_cons (by omega), List.drop_eq_getElem_cons (by omega),
    List.getD_eq_getElem _ _ (by omega), List.getD_eq_getElem _ _ (by omega),
    List.getD_eq_getElem _ _ (by omega), List.getD_eq_getElem _ _ (by omega)]
  rfl

/-- `n` consecutive chunks of `k` elements, one after the other, are the first `n * k` elements. -/
theorem flatMap_take_drop {α : Type} (l : List α) (k n : Nat) :
    ((List.range n).flatMap fun i => (l.drop (k * i)).take k) = l.take (k * n) := by
  induction n with
  | zero => rw [Nat.mul_zero, List.take_zero]; rfl
  | succ n ih =>
    rw [List.range_succ, List.flatMap_append, ih, List.flatMap_singleton, Nat.mul_succ, List.take_add]

/-- Word `t` of a parsed block (R100). -/
theorem parseBlock_get (p : List Bool) (b t : Nat) (lt : t < 16) :
    (parseBlock p b)[t] = BitVec.ofNat 32 (val ((p.drop (512 * b + 32 * t)).take 32)) := by
  simp only [parseBlock, Vector.getElem_ofFn]

/-- The words of a parsed block, in order (R100). -/
theorem toList_parseBlock (p : List Bool) (b : Nat) :
    (parseBlock p b).toList =
      (List.range 16).map fun t => BitVec.ofNat 32 (val ((p.drop (512 * b + 32 * t)).take 32)) := by
  rw [parseBlock, Vector.toList_ofFn, List.ofFn_eq_map, ← List.map_coe_finRange_eq_range, List.map_map]
  rfl

/-- The 32 bits of a parsed word are those it was read from (R102). -/
theorem beBits_ofNat_val {s : List Bool} (isWord : s.length = 32) :
    beBits 32 (BitVec.ofNat 32 (val s)).toNat = s := by
  rw [BitVec.toNat_ofNat, beBits_mod, ← isWord, beBits_val]

/-- The bits of a parsed block's words are the 512 bits of the chunk (R102). -/
theorem flatMap_parseBlock {p : List Bool} {b : Nat} (within : 512 * (b + 1) ≤ p.length) :
    ((parseBlock p b).toList.flatMap fun w => beBits 32 w.toNat) = (p.drop (512 * b)).take 512 := by
  have eachWord : ∀ t ∈ List.range 16,
      beBits 32 (BitVec.ofNat 32 (val ((p.drop (512 * b + 32 * t)).take 32))).toNat =
        ((p.drop (512 * b)).drop (32 * t)).take 32 := by
    intro t inBlock
    rw [List.mem_range] at inBlock
    rw [beBits_ofNat_val (by rw [List.length_take, List.length_drop]; omega), List.drop_drop]
  rw [toList_parseBlock, List.flatMap_map, List.flatMap_congr eachWord, flatMap_take_drop]

theorem parse_of_wholeBlocks {p : List Bool} (whole : p.length % 512 = 0) :
    parse p = .ok ((List.range (p.length / 512)).map (parseBlock p)) := by
  rw [parse, if_pos whole]

/-- A block parsed from the bits of a message is the message's block of big-endian words (R101, R177). -/
theorem parseBlock_bitsOfBytes {q : List Byte} {b : Nat} (within : 64 * (b + 1) ≤ q.length) :
    parseBlock (bitsOfBytes q) b = messageBlock q b := by
  ext t lt
  have fits : 64 * b + 4 * t + 4 ≤ q.length := by omega
  have position : 512 * b + 32 * t = 8 * (64 * b + 4 * t) := by omega
  have chunk : ((bitsOfBytes q).drop (512 * b + 32 * t)).take 32 =
      bitsOfBytes ((q.drop (64 * b + 4 * t)).take 4) := by
    rw [position, ← take_drop_bitsOfBytes fits]
  rw [parseBlock_get _ _ _ lt, messageBlock_get _ _ _ lt, chunk, take_four_drop fits,
    val_bitsOfBytes_four, BitVec.ofNat_toNat, BitVec.setWidth_eq]

end Sys2Proof.Machine

open Sys2Proof Sys2Proof.Machine

/-- Settles O44: the words of a block give its 512 bits back, and the blocks are consecutive chunks. -/
theorem parseLosesNoBits : Obligations.ParseLosesNoBits := by
  intro p whole
  refine ⟨_, parse_of_wholeBlocks whole, by rw [List.length_map, List.length_range], ?_⟩
  have eachBlock : ∀ b ∈ List.range (p.length / 512),
      ((parseBlock p b).toList.flatMap fun w => beBits 32 w.toNat) = (p.drop (512 * b)).take 512 := by
    intro b among
    rw [List.mem_range] at among
    exact flatMap_parseBlock (by omega)
  rw [List.flatMap_map, List.flatMap_congr eachBlock, flatMap_take_drop,
    Nat.mul_div_cancel' (Nat.dvd_of_mod_eq_zero whole), List.take_length]

/-- Settles O45: a word of either view is `wordOfBytes` of its four bytes. -/
theorem parsedWordsAreBigEndian : Obligations.ParsedWordsAreBigEndian := by
  refine ⟨fun q b t inBlock within => ?_, fun buf t inBlock => ?_⟩
  · simp only [parseBlock_bitsOfBytes within, messageBlock_get _ _ _ inBlock, toNat_wordOfBytes]
  · rw [bufferBlock_get buf t inBlock, toNat_wordOfBytes]

end

section
/-! The list of primes of R115 is what trial division leaves of the numbers below 312. Division by the first
seven of them, 2 to 17, is enough: the least prime factor of a composite number below 19^2 is one of these. -/

namespace Sys2Proof.Machine

/-- The primes that trial division divides by: the first seven of R115. -/
abbrev trialDivisors : List Nat := derivationPrimes.take 7

theorem prime_of_mem_trialDivisors : ∀ q ∈ trialDivisors, q.Prime := by decide

theorem mem_trialDivisors_of_prime : ∀ q < 19, q.Prime → q ∈ trialDivisors := by decide

/-- Trial division leaves a number from 2 on that none of the divisors divides, unless it is that divisor. -/
abbrev SurvivesTrialDivision (p : Nat) : Prop := 2 ≤ p ∧ ∀ q ∈ trialDivisors, q ∣ p → q = p

/-- Below 19^2 trial division leaves exactly the primes, for the least factor of a composite number divides it
and is a divisor tried. -/
theorem survivesTrialDivision_iff_prime {p : Nat} (small : p < 19 ^ 2) :
    SurvivesTrialDivision p ↔ p.Prime := by
  refine ⟨fun ⟨two_le, onlyItself⟩ => ?_, fun prime => ⟨prime.two_le, fun q tried divides => ?_⟩⟩
  · by_contra composite
    have factorPrime : p.minFac.Prime := Nat.minFac_prime (by omega)
    have factorSquare : p.minFac ^ 2 < 19 ^ 2 :=
      (Nat.minFac_sq_le_self (by omega) composite).trans_lt small
    have tried : p.minFac ∈ trialDivisors :=
      mem_trialDivisors_of_prime _ (lt_of_pow_lt_pow_left' 2 factorSquare) factorPrime
    exact composite (onlyItself _ tried p.minFac_dvd ▸ factorPrime)
  · exact (Nat.prime_dvd_prime_iff_eq (prime_of_mem_trialDivisors q tried) prime).mp divides

/-- The list of R115 is the numbers below 312, in order, that trial division leaves. -/
theorem derivationPrimes_eq_filter :
    derivationPrimes = (List.range 312).filter (SurvivesTrialDivision ·) := by decide

@[simp] theorem derivationPrimes_length : derivationPrimes.length = 64 := by
  rw [derivationPrimes, List.length_map, derivedConstants_length]

theorem derivationPrimes_increasing : derivationPrimes.Pairwise (· < ·) := by
  rw [derivationPrimes_eq_filter]
  exact List.pairwise_lt_range.filter _

theorem mem_derivationPrimes_iff (p : Nat) : p ∈ derivationPrimes ↔ p < 312 ∧ p.Prime := by
  rw [derivationPrimes_eq_filter, List.mem_filter, List.mem_range, decide_eq_true_iff]
  exact and_congr_right fun below => survivesTrialDivision_iff_prime (by omega)

end Sys2Proof.Machine

open Sys2Proof Sys2Proof.Machine

/-- Settles O37: the list is the range below 312 after trial division, which keeps the order and the primes. -/
theorem derivationPrimesAreTheFirstSixtyFour : Obligations.DerivationPrimesAreTheFirstSixtyFour :=
  ⟨derivationPrimes_length, derivationPrimes_increasing, mem_derivationPrimes_iff⟩

end

section
/-! SUPPORT. `rotr` and `shr` bit by bit and over xor (00_scope.md R9), and what a pass of the schedule's loop
writes and leaves (43_message_scheduler.md R126). -/

namespace Sys2Proof.Machine

section amount
variable (x y : Word) (n : Nat) (amount : 0 < n ∧ n < 32)

/-- Rotation moves bit `(i + n) mod 32` to bit `i` (R9). -/
theorem getLsbD_rotr {i : Nat} (inWord : i < 32) :
    (rotr x n amount).getLsbD i = x.getLsbD ((i + n) % 32) := by
  rw [rotr, BitVec.getLsbD_or, BitVec.getLsbD_ushiftRight, BitVec.getLsbD_shiftLeft, Nat.add_comm n i]
  rcases Nat.lt_or_ge (i + n) 32 with below | wraps
  · simp [Nat.mod_eq_of_lt below, show i < 32 - n by omega]
  · simp [BitVec.getLsbD_of_ge x _ wraps, inWord, show ¬i < 32 - n by omega,
      show (i + n) % 32 = i - (32 - n) by omega]

/-- The logical shift moves bit `i + n` to bit `i` and fills with zero bits (R9). -/
theorem getLsbD_shr (i : Nat) :
    (shr x n amount).getLsbD i = if i + n ≤ 31 then x.getLsbD (i + n) else false := by
  rw [shr, BitVec.getLsbD_ushiftRight, Nat.add_comm n i]
  split_ifs with below
  · rfl
  · exact BitVec.getLsbD_of_ge x _ (by omega)

theorem rotr_xor : rotr (x ^^^ y) n amount = rotr x n amount ^^^ rotr y n amount := by
  refine BitVec.eq_of_getLsbD_eq fun i inWord => ?_
  simp only [getLsbD_rotr _ _ _ inWord, BitVec.getLsbD_xor]

theorem shr_xor : shr (x ^^^ y) n amount = shr x n amount ^^^ shr y n amount :=
  BitVec.ushiftRight_xor_distrib x y n

end amount

theorem scheduleStart_get (m : Block) {t : Nat} (first : t < 16) : (scheduleStart m)[t] = m[t] := by
  simp only [scheduleStart, Vector.getElem_ofFn, dif_pos first]

/-- A pass writes the word of the recurrence at its own index (R126). -/
theorem scheduleStep_get_self (w : Schedule) {i : Nat} (inLoop : 16 ≤ i ∧ i < 64) :
    (scheduleStep w i)[i] = w[i - 16] + s0 w[i - 15] + w[i - 7] + s1 w[i - 2] := by
  simp only [scheduleStep, dif_pos inLoop, Vector.getElem_set_self]

/-- A pass leaves every word but the one at its own index. -/
theorem scheduleStep_get_of_ne (w : Schedule) {i j : Nat} (other : i ≠ j) (lt : j < 64) :
    (scheduleStep w i)[j] = w[j] := by
  rw [scheduleStep]
  split_ifs with inLoop
  · exact Vector.getElem_set_ne _ _ other
  · rfl

/-- Passes leave every word whose index is not among theirs. -/
theorem foldl_scheduleStep_get_of_notMem (is : List Nat) (w : Schedule) {j : Nat} (others : j ∉ is)
    (lt : j < 64) : (is.foldl scheduleStep w)[j] = w[j] := by
  induction is generalizing w with
  | nil => rfl
  | cons i is ih =>
    obtain ⟨other, others⟩ := List.ne_and_not_mem_of_not_mem_cons others
    rw [List.foldl_cons, ih _ others, scheduleStep_get_of_ne w (Ne.symm other)]

theorem expand_get_of_lt (m : Block) {t : Nat} (first : t < 16) : (expand m)[t] = m[t] := by
  have notInLoop : t ∉ List.range' 16 48 := by rw [List.mem_range'_1]; omega
  rw [expand, foldl_scheduleStep_get_of_notMem _ _ notInLoop, scheduleStart_get m first]

/-- The loop stopped before pass `i` holds already the words below `i`, and pass `i` writes word `i` for good. -/
theorem exists_schedule_before_pass (m : Block) {i : Nat} (inLoop : 16 ≤ i ∧ i < 64) :
    ∃ w : Schedule, (expand m)[i] = (scheduleStep w i)[i] ∧
      ∀ (j : Nat) (below : j < i), (expand m)[j] = w[j] := by
  obtain ⟨k, rfl⟩ := Nat.exists_eq_add_of_le inLoop.1
  have passes : List.range' 16 48 = List.range' 16 k ++ (16 + k) :: List.range' (16 + k + 1) (47 - k) := by
    rw [← List.range'_succ, List.range'_append_1]
    congr 1
    omega
  have afterwards : ∀ j ≤ 16 + k, j ∉ List.range' (16 + k + 1) (47 - k) := by
    intro j upTo
    rw [List.mem_range'_1]
    omega
  refine ⟨(List.range' 16 k).foldl scheduleStep (scheduleStart m), ?_, fun j below => ?_⟩ <;>
    simp only [expand, passes, List.foldl_append, List.foldl_cons]
  · exact foldl_scheduleStep_get_of_notMem _ _ (afterwards _ le_rfl) _
  · rw [foldl_scheduleStep_get_of_notMem _ _ (afterwards j below.le), scheduleStep_get_of_ne _ below.ne']

end Sys2Proof.Machine

open Sys2Proof Sys2Proof.Machine

/-- Settles O31: xor acts bit by bit on the two rotations and the shift, each of which is linear over xor. -/
theorem scheduleMixingFunctionsBitByBit : Obligations.ScheduleMixingFunctionsBitByBit := by
  refine ⟨fun x i inWord => ?_, fun x y => ?_⟩
  · simp [s0, s1, getLsbD_rotr _ _ _ inWord, getLsbD_shr]
  · simp only [s0, s1, rotr_xor, shr_xor]
    constructor <;> ac_rfl

/-- Settles O33: pass `i` writes word `i` from the words below it, which no later pass writes. -/
theorem scheduleFollowsTheRecurrence : Obligations.ScheduleFollowsTheRecurrence := by
  refine fun m => ⟨fun t first => expand_get_of_lt m first, fun i inLoop => ?_⟩
  obtain ⟨w, written, kept⟩ := exists_schedule_before_pass m inLoop
  rw [written, scheduleStep_get_self w inLoop, kept, kept, kept, kept] <;> omega

end

section
/-! SUPPORT. Ch as a selector whose two terms are disjoint (44_compressor.md R137), Maj bit by bit (R138), and
the registers after each of the 64 rounds (R141). -/

namespace Sys2Proof.Machine

theorem getLsbD_ch (x y z : Word) {i : Nat} (inWord : i < 32) :
    (ch x y z).getLsbD i = if x.getLsbD i then y.getLsbD i else z.getLsbD i := by
  rw [ch, BitVec.getLsbD_xor, BitVec.getLsbD_and, BitVec.getLsbD_and, BitVec.getLsbD_not, decide_eq_true inWord]
  cases x.getLsbD i <;> simp

/-- The two terms of Ch never have a 1 in the same bit position (R137). -/
theorem ch_terms_disjoint (x y z : Word) : (x &&& y) &&& (~~~x &&& z) = 0#32 := by
  calc (x &&& y) &&& (~~~x &&& z) = (x &&& ~~~x) &&& (y &&& z) := by ac_rfl
    _ = 0#32 := by simp only [BitVec.and_not_self, BitVec.zero_and, BitVec.ofNat_eq_ofNat]

theorem ch_eq_or (x y z : Word) : ch x y z = (x &&& y) ||| (~~~x &&& z) := by
  refine BitVec.eq_of_getLsbD_eq fun i inWord => ?_
  rw [getLsbD_ch x y z inWord, BitVec.getLsbD_or, BitVec.getLsbD_and, BitVec.getLsbD_and, BitVec.getLsbD_not,
    decide_eq_true inWord]
  cases x.getLsbD i <;> simp

theorem ch_eq_add (x y z : Word) : ch x y z = (x &&& y) + (~~~x &&& z) := by
  rw [ch_eq_or, BitVec.add_eq_or_of_and_eq_zero _ _ (ch_terms_disjoint x y z)]

theorem getLsbD_maj_iff (x y z : Word) (i : Nat) : (maj x y z).getLsbD i = true ↔
    2 ≤ (x.getLsbD i).toNat + (y.getLsbD i).toNat + (z.getLsbD i).toNat := by
  simp only [maj, BitVec.getLsbD_xor, BitVec.getLsbD_and]
  generalize x.getLsbD i = a, y.getLsbD i = b, z.getLsbD i = c
  revert a b c
  decide

theorem maj_swap_first (x y z : Word) : maj x y z = maj y x z := by
  simp only [maj]
  ac_rfl

theorem maj_swap_last (x y z : Word) : maj x y z = maj x z y := by
  simp only [maj]
  ac_rfl

/-- The registers after the first `n` rounds (R141). -/
def firstRounds (k w : Schedule) (r : Regs) (n : Nat) : Regs :=
  ((List.finRange 64).take n).foldl (fun r j => oneRound r k[j] w[j]) r

section firstRounds
variable (k w : Schedule) (r : Regs)

@[simp] theorem firstRounds_zero : firstRounds k w r 0 = r := (rfl)

/-- Round `j` runs on the registers that the rounds before it left (R141). -/
theorem firstRounds_succ {j : Nat} (inRounds : j < 64) :
    firstRounds k w r (j + 1) = oneRound (firstRounds k w r j) k[j] w[j] := by
  have isRound : j < (List.finRange 64).length := by rwa [List.length_finRange]
  rw [firstRounds, List.take_succ_eq_append_getElem isRound, List.foldl_append, List.getElem_finRange]
  rfl

theorem allRounds_eq_firstRounds : allRounds k w r = firstRounds k w r 64 := by
  rw [allRounds, firstRounds, List.take_of_length_le List.length_finRange.le]

end firstRounds

end Sys2Proof.Machine

open Sys2Proof Sys2Proof.Machine

/-- Settles O32: xor acts bit by bit on the rotations, the terms of Ch are disjoint, and Maj is a majority at each
bit. -/
theorem roundMixingFunctionsBitByBit : Obligations.RoundMixingFunctionsBitByBit := by
  refine ⟨fun x i inWord => ?_, fun x y z i inWord => ⟨getLsbD_ch x y z inWord, getLsbD_maj_iff x y z i⟩,
    fun x y z => ⟨ch_eq_or x y z, ch_eq_add x y z, maj_swap_first x y z, maj_swap_last x y z⟩⟩
  simp only [bigS0, bigS1, BitVec.getLsbD_xor, getLsbD_rotr _ _ _ inWord, and_self]

/-- Settles O36: the sequence is the registers after the first `n` rounds. -/
theorem compressIsSixtyFourRoundsAndFeedForward : Obligations.CompressIsSixtyFourRoundsAndFeedForward := by
  refine fun st w k => ⟨firstRounds k w (Regs.start st), firstRounds_zero k w (Regs.start st),
    fun j inRounds => firstRounds_succ k w (Regs.start st) inRounds, ?_⟩
  rw [compress, allRounds_eq_firstRounds, feedForward]

end

section
/-! SUPPORT. The first bytes of BUF as one byte sequence (20_memory.md R44, 40_padder.md R89): what FINALIZE's
padding leaves there, and that its block is parsed as the buffer's block (41_block_parser.md R103). -/

namespace Sys2Proof.Machine

@[simp] theorem length_bufferBytes (m : Memory) (n : Nat) : (bufferBytes m n).length = n := by
  rw [bufferBytes, List.length_map, List.length_range]

theorem bufferBytes_getD (m : Memory) {n i : Nat} (within : i < n) : (bufferBytes m n).getD i 0 = m.read i := by
  rw [List.getD_eq_getElem _ _ (by rwa [length_bufferBytes])]
  simp only [bufferBytes, List.getElem_map, List.getElem_range]

theorem bufferBytes_congr {m m' : Memory} {n : Nat} (same : ∀ i, i < n → m'.read i = m.read i) :
    bufferBytes m' n = bufferBytes m n :=
  List.map_congr_left fun i within => same i (List.mem_range.mp within)

/-- The bytes of the buffer split at any index. -/
theorem bufferBytes_add (m : Memory) (a b : Nat) :
    bufferBytes m (a + b) = bufferBytes m a ++ (List.range b).map fun i => m.read (a + i) := by
  rw [bufferBytes, List.range_add, List.map_append, List.map_map, bufferBytes]
  rfl

/-- Bytes of the buffer that are all 0x00. -/
theorem map_read_eq_replicate_zero {m : Memory} {a n : Nat} (zeros : ∀ i, i < n → m.read (a + i) = 0x00) :
    ((List.range n).map fun i => m.read (a + i)) = List.replicate n 0x00 := by
  rw [List.map_congr_left fun i within => zeros i (List.mem_range.mp within), List.map_const',
    List.length_range]

/-- The 64 bytes of the buffer are the block that ProcessBlock parses (R103, R165). -/
theorem blockOfBytes_bufferBytes (m : Memory) : blockOfBytes (bufferBytes m 64) = bufferBlock m := by
  ext t lt
  rw [blockOfBytes, messageBlock_get _ _ _ lt, bufferBlock_get _ _ lt, Nat.mul_zero, Nat.zero_add,
    bufferBytes_getD m (by omega), bufferBytes_getD m (by omega), bufferBytes_getD m (by omega),
    bufferBytes_getD m (by omega)]

/-- Step 1 of R167 and the zero fill after it: the message bytes, 0x80, and zeros up to index `r + z`. -/
theorem bufferBytes_of_marker {m m' : Memory} {r z : Nat} (kept : ∀ i, i < r → m'.read i = m.read i)
    (marker : m'.read r = 0x80) (zeros : ∀ i, i < z → m'.read (r + 1 + i) = 0x00) :
    bufferBytes m' (r + 1 + z) = bufferBytes m r ++ 0x80 :: List.replicate z 0x00 := by
  rw [bufferBytes_add, bufferBytes_add, bufferBytes_congr kept, map_read_eq_replicate_zero zeros,
    List.append_assoc, ← marker]
  rfl

/-- Step 3 of R167: the last eight bytes are the length field, most significant byte first (R84). -/
theorem bufferBytes_of_lengthField {m : Memory} {l : Nat}
    (lengthField : ∀ i, i < 8 → m.read (56 + i) = beByte 8 l i) :
    bufferBytes m 64 = bufferBytes m 56 ++ beBytes 8 l := by
  rw [show 64 = 56 + 8 from rfl, bufferBytes_add, beBytes,
    List.map_congr_left fun i within => lengthField i (List.mem_range.mp within)]

section padding
variable (buf : Memory) (l : Nat) {r : Nat}

/-- The one last block of a message with at most 55 bytes in the buffer (R89, R167). -/
theorem bufferBytes_padLastBlock (le : r ≤ 55) :
    bufferBytes (padLastBlock buf r l) 64 =
      bufferBytes buf r ++ 0x80 :: List.replicate (55 - r) 0x00 ++ beBytes 8 l := by
  have reads := read_padLastBlock le buf l
  have front : bufferBytes (padLastBlock buf r l) (r + 1 + (55 - r)) =
      bufferBytes buf r ++ 0x80 :: List.replicate (55 - r) 0x00 := by
    refine bufferBytes_of_marker (fun i below => ?_) ?_ fun i inFill => ?_
    · rw [reads i (by omega), if_pos below]
    · rw [reads r (by omega), if_neg (lt_irrefl r), if_pos rfl]
    · rw [reads _ (by omega), if_neg (by omega), if_neg (by omega), if_pos (by omega)]
  rw [bufferBytes_of_lengthField (l := l), ← front, show r + 1 + (55 - r) = 56 by omega]
  intro i inField
  rw [reads _ (by omega), if_neg (by omega), if_neg (by omega), if_neg (by omega), Nat.add_sub_cancel_left]

/-- The first of the two blocks of a message with at least 56 bytes in the buffer (R89, R167). -/
theorem bufferBytes_padFirstOfTwo (lt : r < 64) :
    bufferBytes (padFirstOfTwo buf r) 64 = bufferBytes buf r ++ 0x80 :: List.replicate (63 - r) 0x00 := by
  have reads := read_padFirstOfTwo buf r
  rw [show 64 = r + 1 + (63 - r) by omega]
  refine bufferBytes_of_marker (fun i below => ?_) ?_ fun i inFill => ?_
  · rw [reads i (by omega), if_pos below]
  · rw [reads r lt, if_neg (lt_irrefl r), if_pos rfl]
  · rw [reads _ (by omega), if_neg (by omega), if_neg (by omega)]

/-- The second of two blocks, which holds no message byte (R89, R167). -/
theorem bufferBytes_padSecondOfTwo :
    bufferBytes (padSecondOfTwo buf l) 64 = List.replicate 56 0x00 ++ beBytes 8 l := by
  have reads := read_padSecondOfTwo buf l
  have front : bufferBytes (padSecondOfTwo buf l) 56 = List.replicate 56 0x00 := by
    have zeros : ∀ i, i < 56 → (padSecondOfTwo buf l).read (0 + i) = 0x00 := by
      intro i inFill
      rw [reads _ (by omega), if_pos (by omega)]
    rw [show 56 = 0 + 56 from rfl, bufferBytes_add, map_read_eq_replicate_zero zeros]
    rfl
  rw [bufferBytes_of_lengthField (l := l), front]
  intro i inField
  rw [reads _ (by omega), if_neg (by omega), Nat.add_sub_cancel_left]

variable {a : Nat}

/-- FINALIZE's padding writes below index 64 only (R167). -/
theorem read_padLastBlock_of_ge (le : r ≤ 55) (outside : 64 ≤ a) :
    (padLastBlock buf r l).read a = buf.read a := by
  rw [padLastBlock, read_memWrite, if_neg (by omega), read_zeroFill, if_neg (by omega), read_memWrite,
    if_neg (by omega)]

theorem read_padFirstOfTwo_of_ge (lt : r < 64) (outside : 64 ≤ a) :
    (padFirstOfTwo buf r).read a = buf.read a := by
  rw [padFirstOfTwo, read_zeroFill, if_neg (by omega), read_memWrite, if_neg (by omega)]

theorem read_padSecondOfTwo_of_ge (outside : 64 ≤ a) : (padSecondOfTwo buf l).read a = buf.read a := by
  rw [padSecondOfTwo, read_memWrite, if_neg (by omega), read_zeroFill, if_neg (by omega)]

end padding

end Sys2Proof.Machine
end

section
/-! SUPPORT. What the four commands do where they are performed (45_commands.md R161 to R172), as the claims
about them need it: STATUS of an open message, CNT after one byte, and the blocks of FINALIZE. -/

namespace Sys2Proof.Machine

/-- STATUS while a message is open and nothing was raised (R29). -/
theorem status_of_open {s : State} (opened : s.phase = .absorbing) (noError : s.errCode = .noError) :
    s.status = 0b0000 := by
  rw [State.status, State.errorFlag, State.digestValid, opened, noError]
  rfl

section absorb
variable {s : State} (d : Byte)

/-- With room for one more byte LEN grows by 8 without overflow (R22, R163). -/
theorem absorbByte_len_toNat (room : s.len.toNat ≤ 2 ^ 64 - 16) :
    (s.absorbByte d).len.toNat = s.len.toNat + 8 := by
  rw [absorbByte_len, len_add_eight, Nat.mod_eq_of_lt (by omega)]

/-- With room for one more byte CNT goes to the next index of the buffer, and from 63 to 0 (R163). -/
theorem absorbByte_cnt (room : s.len.toNat ≤ 2 ^ 64 - 16) : (s.absorbByte d).cnt = (s.cnt + 1) % 64 := by
  rw [cnt_eq, absorbByte_len_toNat d room, cnt_eq]
  omega

/-- The ABSORB that completes a block processes it with the new byte in it (R163, R165). -/
theorem absorbByte_h_of_last (last : s.cnt = 63) :
    (s.absorbByte d).h = compress s.h (expand (bufferBlock (s.absorbByte d).buf)) roundConstants := by
  rw [absorbByte_h, if_pos last, absorbByte_buf, hashBlock]

/-- ABSORB is performed on an open message with room for one more byte (R162, R163). -/
theorem exec_absorb_of_room (opened : s.phase = .absorbing) (room : s.len.toNat ≤ 2 ^ 64 - 16) :
    exec (.absorb d) s = .next (s.absorbByte d) := by
  rcases exec_absorb_cases d s with ⟨closed, _⟩ | ⟨_, full, _⟩ | ⟨_, _, performed⟩
  · exact absurd opened closed
  · rw [full, maxLength_toNat] at room
    omega
  · exact performed

end absorb

section finalize
variable {s : State}

/-- FINALIZE is performed on an open message (R166). -/
theorem exec_finalize_of_open (arg : BitVec 8) (opened : s.phase = .absorbing) :
    exec (.finalize arg) s = .next ((s.padAndProcess.setPhase .done).respond true 0) := by
  rcases exec_finalize_cases arg s with ⟨closed, _⟩ | ⟨_, performed⟩
  · exact absurd opened closed
  · exact performed

/-- FINALIZE's padding leaves every byte outside `BUF[0..63]` (R167). -/
theorem read_padAndProcess_of_ge {a : Nat} (outside : 64 ≤ a) :
    s.padAndProcess.buf.read a = s.buf.read a := by
  rcases Nat.lt_or_ge 55 s.cnt with two | one
  · rw [padAndProcess_two s two, read_padSecondOfTwo_of_ge _ _ outside,
      read_padFirstOfTwo_of_ge _ (cnt_lt s) outside]
  · rw [padAndProcess_one s one, read_padLastBlock_of_ge _ _ one outside]

/-- The buffer after FINALIZE's padding is the last block it processed (R167). -/
theorem bufferBytes_padAndProcess_one (one : s.cnt ≤ 55) :
    bufferBytes s.padAndProcess.buf 64 =
      bufferBytes s.buf s.cnt ++ 0x80 :: List.replicate (55 - s.cnt) 0x00 ++ beBytes 8 s.len.toNat := by
  rw [padAndProcess_one s one, bufferBytes_padLastBlock _ _ one]

theorem bufferBytes_padAndProcess_two (two : 56 ≤ s.cnt) :
    bufferBytes s.padAndProcess.buf 64 = List.replicate 56 0x00 ++ beBytes 8 s.len.toNat := by
  rw [padAndProcess_two s two, bufferBytes_padSecondOfTwo]

/-- With at most 55 bytes in the buffer the one block that FINALIZE leaves there is compressed (R167). -/
theorem padAndProcess_h_one (one : s.cnt ≤ 55) :
    s.padAndProcess.h =
      compress s.h (expand (blockOfBytes (bufferBytes s.padAndProcess.buf 64))) roundConstants := by
  rw [blockOfBytes_bufferBytes, padAndProcess_one s one, hashBlock]

/-- With at least 56 bytes in the buffer the block with the marker is compressed, then the block that FINALIZE
leaves there (R167). -/
theorem padAndProcess_h_two (two : 56 ≤ s.cnt) :
    s.padAndProcess.h =
      compress (compress s.h (expand (blockOfBytes
          (bufferBytes s.buf s.cnt ++ 0x80 :: List.replicate (63 - s.cnt) 0x00))) roundConstants)
        (expand (blockOfBytes (bufferBytes s.padAndProcess.buf 64))) roundConstants := by
  rw [← bufferBytes_padFirstOfTwo s.buf (cnt_lt s), blockOfBytes_bufferBytes, blockOfBytes_bufferBytes,
    padAndProcess_two s two, hashBlock, hashBlock]

end finalize

end Sys2Proof.Machine

open Sys2Proof Sys2Proof.Machine

/-- Settles O12: INIT has one outcome, which opens a message and leaves BUF. -/
theorem initOpensANewMessage : Obligations.InitOpensANewMessage := by
  intro arg s
  exact ⟨_, exec_init arg s, rfl, status_of_open rfl rfl, fun _ => rfl⟩

/-- Settles O18: the two outcomes of READ, by PHASE. -/
theorem readAnswersTheDigestWord : Obligations.ReadAnswersTheDigestWord := by
  intro argHi k s
  rcases exec_read_cases argHi k s with ⟨done, performed⟩ | ⟨notDone, refused⟩
  · exact ⟨fun _ => performed, fun notDone => absurd done notDone⟩
  · exact ⟨fun done => absurd done notDone, fun _ => refused⟩

/-- Settles O14: the length bound leaves only the performed outcome of ABSORB, whose fields these are. -/
theorem absorbAppendsAByte : Obligations.AbsorbAppendsAByte := by
  intro d s opened room
  refine ⟨s.absorbByte d, exec_absorb_of_room d opened room, absorbByte_len_toNat d room, absorbByte_cnt d room,
    absorbByte_phase s d, absorbByte_errCode s d, absorbByte_inbox s d, absorbByte_resp s d, ?_, ?_, ?_,
    absorbByte_h_of_last d⟩
  · rw [read_absorbByte, if_pos rfl]
  · intro a other
    rw [read_absorbByte, if_neg other]
  · intro notLast
    rw [absorbByte_h, if_neg notLast]

/-- Settles O17: the bytes of the padded buffer, by the number of blocks, are the blocks that are compressed. -/
theorem finalizePadsAndProcessesTheLastBlocks : Obligations.FinalizePadsAndProcessesTheLastBlocks := by
  intro arg s opened
  refine ⟨_, exec_finalize_of_open arg opened, by simp, by simp, by simp, by simp, by simp, ?_, ?_, ?_⟩ <;>
    simp only [respond_h, respond_buf, setPhase_h, setPhase_buf]
  · exact fun _ => read_padAndProcess_of_ge
  · intro one
    rw [← bufferBytes_padAndProcess_one one]
    exact ⟨padAndProcess_h_one one, rfl⟩
  · intro two
    rw [← bufferBytes_padAndProcess_two two]
    exact ⟨padAndProcess_h_two two, rfl⟩

end

section
/-! SUPPORT. When a command is refused (60_exceptions.md R196). -/

namespace Sys2Proof.Machine

section refused
variable {s : State}

/-- In DONE and in ERROR no message is open (R26). -/
theorem phase_ne_absorbing (closed : s.phase = .done ∨ s.phase = .error) : s.phase ≠ .absorbing := by
  rcases closed with done | failed
  · simp [done]
  · simp [failed]

/-- In ABSORBING and in ERROR no digest is ready (R26). -/
theorem phase_ne_done (unready : s.phase = .absorbing ∨ s.phase = .error) : s.phase ≠ .done := by
  rcases unready with opened | failed
  · simp [opened]
  · simp [failed]

/-- ABSORB with no open message is refused, whatever LEN is (R162, R200). -/
theorem exec_absorb_of_closed (d : Byte) (closed : s.phase ≠ .absorbing) :
    exec (.absorb d) s = .next s.refuse := by
  rcases exec_absorb_cases d s with ⟨_, refused⟩ | ⟨opened, _, _⟩ | ⟨opened, _, _⟩
  · exact refused
  · exact absurd opened closed
  · exact absurd opened closed

/-- FINALIZE with no open message is refused (R166). -/
theorem exec_finalize_of_closed (arg : BitVec 8) (closed : s.phase ≠ .absorbing) :
    exec (.finalize arg) s = .next s.refuse := by
  rcases exec_finalize_cases arg s with ⟨_, refused⟩ | ⟨opened, _⟩
  · exact refused
  · exact absurd opened closed

end refused

end Sys2Proof.Machine

open Sys2Proof Sys2Proof.Machine

/-- Settles O16: outside the PHASE that admits it each command has only its refused outcome, and INIT has none. -/
theorem refusedCommandsChangeNothing : Obligations.RefusedCommandsChangeNothing := by
  refine ⟨?absorb, ?finalize, ?read, ?init⟩
  case absorb => exact fun d s closed => exec_absorb_of_closed d (phase_ne_absorbing closed)
  case finalize => exact fun arg s closed => exec_finalize_of_closed arg (phase_ne_absorbing closed)
  case read => exact fun argHi k s unready => (readAnswersTheDigestWord argHi k s).2 (phase_ne_done unready)
  case init => exact fun arg s => ⟨_, exec_init arg s, respond_resp s.openMessage true 0⟩

end

section
/-! SUPPORT. The command word as its two fields, and the decoder and the encoder on each operation
(30_encoding.md R60, R61, R63). -/

namespace Sys2Proof

/-- A command word is its `op` field above its `arg` field (R60). -/
theorem cmdOp_append_cmdArg (w : CmdWord) : cmdOp w ++ cmdArg w = w :=
  (BitVec.extractLsb'_append_extractLsb'_eq_extractLsb' rfl).trans BitVec.extractLsb'_eq_self

/-- READ's `arg` is its ignored bits above its index (R61, R63). -/
theorem argHighFive_append_argLowThree (arg : BitVec 8) : argHighFive arg ++ argLowThree arg = arg :=
  (BitVec.extractLsb'_append_extractLsb'_eq_extractLsb' rfl).trans BitVec.extractLsb'_eq_self

@[simp] theorem argHighFive_append (argHi : BitVec 5) (k : BitVec 3) : argHighFive (argHi ++ k) = argHi :=
  BitVec.extractLsb'_append_eq_left

@[simp] theorem argLowThree_append (argHi : BitVec 5) (k : BitVec 3) : argLowThree (argHi ++ k) = k :=
  BitVec.extractLsb'_append_eq_right

/-- The operation map has a row for each value of `op` (R61, R64). -/
theorem op_cases (op : BitVec 2) : op = 0b00 ∨ op = 0b01 ∨ op = 0b10 ∨ op = 0b11 := by
  revert op
  decide

section decode
variable {w : CmdWord}

theorem decode_of_op_init (op : cmdOp w = 0b00) : decode w = .init (cmdArg w) := by
  rw [decode, op]
  rfl

theorem decode_of_op_absorb (op : cmdOp w = 0b01) : decode w = .absorb (cmdArg w) := by
  rw [decode, op]
  rfl

theorem decode_of_op_finalize (op : cmdOp w = 0b10) : decode w = .finalize (cmdArg w) := by
  rw [decode, op]
  rfl

theorem decode_of_op_read (op : cmdOp w = 0b11) :
    decode w = .read (argHighFive (cmdArg w)) (argLowThree (cmdArg w)) := by
  rw [decode, op]
  rfl

end decode

/-- A command is read back from its own word (R61, R63). -/
theorem decode_encode (i : Instr) : decode (encode i) = i := by
  cases i with
  | init arg => rw [decode_of_op_init (Laws.OpField.init arg), encode, cmdArg_append]
  | absorb d => rw [decode_of_op_absorb (Laws.OpField.absorb d), encode, cmdArg_append]
  | finalize arg => rw [decode_of_op_finalize (Laws.OpField.finalize arg), encode, cmdArg_append]
  | read argHi k =>
    rw [decode_of_op_read (Laws.OpField.read argHi k), encode, cmdArg_append, argHighFive_append,
      argLowThree_append]

/-- A command word is the word of the command it decodes to (R64; log 15). -/
theorem encode_decode (w : CmdWord) : encode (decode w) = w := by
  conv_rhs => rw [← cmdOp_append_cmdArg w]
  rcases op_cases (cmdOp w) with op | op | op | op
  · rw [decode_of_op_init op, encode, op]
    rfl
  · rw [decode_of_op_absorb op, encode, op]
    rfl
  · rw [decode_of_op_finalize op, encode, op]
    rfl
  · rw [decode_of_op_read op, encode, op, argHighFive_append_argLowThree]
    rfl

/-- Every row masks a word to its `op` field (R61). -/
theorem covers_append {r : OpcodeRow} (among : r ∈ opcodeTable) (op : BitVec 2) (arg : BitVec 8) :
    r.covers (op ++ arg) = r.covers (op ++ 0#8) := by
  have opMask : ∀ r ∈ opcodeTable, r.mask = 0b11#2 ++ 0#8 := by decide
  rw [OpcodeRow.covers, OpcodeRow.covers, opMask r among, BitVec.and_append, BitVec.and_append,
    BitVec.and_zero, BitVec.and_zero]

/-- The rows that cover a word are those that cover its `op` with `arg` zero. -/
theorem filter_covers (w : CmdWord) :
    opcodeTable.filter (·.covers w) = opcodeTable.filter (·.covers (cmdOp w ++ 0#8)) := by
  refine List.filter_congr fun r among => ?_
  rw [← covers_append among (cmdOp w) (cmdArg w), cmdOp_append_cmdArg]

/-- A number of at most ten bits is read as its word (R60; log 3). -/
theorem decodeTableWord_of_lt {nbits w : Nat} (fits : w % 2 ^ nbits < 1024) :
    decodeTableWord nbits w = some (decode (BitVec.ofNat 10 (w % 2 ^ nbits))) := by
  rw [decodeTableWord, decodeNumber, wfCommandNumber, decide_eq_true fits, if_pos rfl]

theorem decodeTableWord_of_ge {nbits w : Nat} (wide : 1024 ≤ w % 2 ^ nbits) :
    decodeTableWord nbits w = none := by
  rw [decodeTableWord, decodeNumber, wfCommandNumber, decide_eq_false wide.not_gt]
  rfl

/-- With ten bits or more a table row's number is the whole word (log 3). -/
theorem encode_toNat_mod {nbits : Nat} (i : Instr) (wide : 10 ≤ nbits) :
    (encode i).toNat % 2 ^ nbits = (encode i).toNat :=
  Nat.mod_eq_of_lt ((encode i).isLt.trans_le (Nat.pow_le_pow_right (by decide) wide))

namespace Machine

theorem withFetchWord_encode {nbits : Nat} (s : State) (i : Instr) (wide : 10 ≤ nbits) :
    s.withFetchWord nbits (encode i).toNat = { s with inbox := .cmd (encode i) :: s.inbox } := by
  rw [State.withFetchWord, encode_toNat_mod i wide, wfCommandNumber, decide_eq_true (encode i).isLt,
    if_pos rfl, BitVec.ofNat_toNat, BitVec.setWidth_eq]

theorem exec_finalize (arg : BitVec 8) (s : State) : exec (.finalize arg) s = execFinalize s := rfl

theorem exec_read (argHi : BitVec 5) (k : BitVec 3) (s : State) : exec (.read argHi k) s = execRead k s := rfl

/-- The bits a command ignores reach no meaning (R64). -/
theorem exec_decode_congr {w w' : CmdWord} (sameOp : cmdOp w = cmdOp w')
    (sameByte : cmdOp w = 0b01 → cmdArg w = cmdArg w')
    (sameIndex : cmdOp w = 0b11 → argLowThree (cmdArg w) = argLowThree (cmdArg w')) (s : State) :
    exec (decode w) s = exec (decode w') s := by
  rcases op_cases (cmdOp w) with op | op | op | op
  · rw [decode_of_op_init op, decode_of_op_init (sameOp ▸ op), exec_init, exec_init]
  · rw [decode_of_op_absorb op, decode_of_op_absorb (sameOp ▸ op), sameByte op]
  · rw [decode_of_op_finalize op, decode_of_op_finalize (sameOp ▸ op), exec_finalize, exec_finalize]
  · rw [decode_of_op_read op, decode_of_op_read (sameOp ▸ op), sameIndex op, exec_read, exec_read]

end Machine

end Sys2Proof

open Sys2Proof Sys2Proof.Machine

/-- Settles O2, by the operation field of each command's word. -/
theorem decodeEncodeGivesTheCommandBack : Obligations.DecodeEncodeGivesTheCommandBack := decode_encode

/-- Settles O1: nine words, each decoded. -/
theorem commandWordsDecodeAsListed : Obligations.CommandWordsDecodeAsListed := by
  unfold Obligations.CommandWordsDecodeAsListed
  decide

/-- Settles O3, by the operation field of the word. -/
theorem encodeDecodeGivesTheWordBack : Obligations.EncodeDecodeGivesTheWordBack := encode_decode

/-- Settles O4: a row covers a word by its operation field alone, which has four values. -/
theorem everyWordMatchesExactlyOneRow : Obligations.EveryWordMatchesExactlyOneRow := by
  intro w
  rw [filter_covers]
  rcases op_cases (cmdOp w) with op | op | op | op
  · rw [decode_of_op_init op, op]
    rfl
  · rw [decode_of_op_absorb op, op]
    rfl
  · rw [decode_of_op_finalize op, op]
    rfl
  · rw [decode_of_op_read op, op]
    rfl

/-- Settles O5: the bound is the decoder's own check, and a command's word passes it. -/
theorem tableWordsAreReadWithinTenBits : Obligations.TableWordsAreReadWithinTenBits := by
  refine ⟨fun _ _ => decodeTableWord_of_ge, fun nbits i wide => ?_⟩
  have fits := encode_toNat_mod i wide
  rw [decodeTableWord_of_lt (fits.trans_lt (encode i).isLt), fits, BitVec.ofNat_toNat, BitVec.setWidth_eq,
    decode_encode]

/-- Settles O6: a step on a command word, and the word of a command decodes to it. -/
theorem stepRunsTheDecodedCommand : Obligations.StepRunsTheDecodedCommand := by
  refine ⟨fun s w rest offered => step_cmd offered, fun s i nbits wide => ?_⟩
  rw [withFetchWord_encode s i wide, step_cmd rfl, decode_encode]

/-- Settles O7: words of one operation and the same operands that are read have one meaning. -/
theorem ignoredBitsNeverMatter : Obligations.IgnoredBitsNeverMatter := by
  intro s rest w w' sameOp sameByte sameIndex
  rw [step_cmd rfl, step_cmd rfl]
  exact exec_decode_congr sameOp sameByte sameIndex _

end

section
/-! SUPPORT. What a command answers, in one relation (45_commands.md R160 to R172), and what follows of each
command from it: the invariant, the writers of H and LEN, the data of a response, the error code. -/

namespace Sys2Proof.Machine

/-- The PHASE that admits a command; INIT is admitted in every one (R174, R196). -/
def Admits (phase : Phase) : Instr → Prop
  | .init _ => True
  | .absorb _ | .finalize _ => phase = .absorbing
  | .read _ _ => phase = .done

/-- `Performs s i t`: the command i takes s to t. One constructor for each outcome of a command (R161, R163, R164,
R168, R172, R196). -/
inductive Performs (s : State) : Instr → State → Prop where
  | refuse (i : Instr) (unadmitted : ¬Admits s.phase i) : Performs s i s.refuse
  | openMessage (arg : BitVec 8) : Performs s (.init arg) (s.openMessage.respond true 0)
  | raiseInputError (d : Byte) (opened : s.phase = .absorbing) (full : s.len = maxLength) :
      Performs s (.absorb d) s.raiseInputError
  | absorbByte (d : Byte) (opened : s.phase = .absorbing) (room : s.len ≠ maxLength) :
      Performs s (.absorb d) (s.absorbByte d)
  | finalize (arg : BitVec 8) (opened : s.phase = .absorbing) :
      Performs s (.finalize arg) ((s.padAndProcess.setPhase .done).respond true 0)
  | read (argHi : BitVec 5) (k : BitVec 3) (done : s.phase = .done) :
      Performs s (.read argHi k) (s.respond true (s.digestWord k))

/-- Every command answers a next state, one that `Performs` lists (R160, R180). -/
theorem exec_next (i : Instr) (s : State) : ∃ t, exec i s = .next t ∧ Performs s i t := by
  cases i with
  | init arg => exact ⟨_, exec_init arg s, .openMessage arg⟩
  | absorb d =>
    rcases exec_absorb_cases d s with ⟨closed, e⟩ | ⟨opened, full, e⟩ | ⟨opened, room, e⟩
    · exact ⟨_, e, .refuse _ closed⟩
    · exact ⟨_, e, .raiseInputError d opened full⟩
    · exact ⟨_, e, .absorbByte d opened room⟩
  | finalize arg =>
    rcases exec_finalize_cases arg s with ⟨closed, e⟩ | ⟨opened, e⟩
    · exact ⟨_, e, .refuse _ closed⟩
    · exact ⟨_, e, .finalize arg opened⟩
  | read argHi k =>
    rcases exec_read_cases argHi k s with ⟨done, e⟩ | ⟨notDone, e⟩
    · exact ⟨_, e, .read argHi k done⟩
    · exact ⟨_, e, .refuse _ notDone⟩

theorem performs_of_exec {i : Instr} {s t : State} (h : exec i s = .next t) : Performs s i t := by
  obtain ⟨u, e, performed⟩ := exec_next i s
  cases e.symm.trans h
  exact performed

/-- A command has one outcome, so what `Performs` lists is what it answers. -/
theorem Performs.exec_eq {i : Instr} {s t : State} (performed : Performs s i t) : exec i s = .next t := by
  cases performed with
  | refuse i unadmitted =>
    cases i with
    | init arg => exact absurd trivial unadmitted
    | absorb d => exact exec_absorb_of_closed d unadmitted
    | finalize arg => exact exec_finalize_of_closed arg unadmitted
    | read argHi k => exact (readAnswersTheDigestWord argHi k s).2 unadmitted
  | openMessage arg => exact exec_init arg s
  | raiseInputError d opened full => simp [exec, execAbsorb, opened, full]
  | absorbByte d opened room => simp [exec, execAbsorb, opened, room]
  | finalize arg opened => exact exec_finalize_of_open arg opened
  | read argHi k done => exact (readAnswersTheDigestWord argHi k s).1 done

/-- A step is idle, takes a RESET, or performs the command of the next word. -/
theorem step_performs_cases {s t : State} (h : step s = .next t) :
    (s.inbox = [] ∧ t = s.idle) ∨
    (∃ rest, s.inbox = .reset :: rest ∧ t = { s with inbox := rest }.takeReset) ∨
    (∃ w rest, s.inbox = .cmd w :: rest ∧ Performs { s with inbox := rest } (decode w) t) := by
  rcases step_cases h with idle | reset | ⟨w, rest, offered, run⟩
  · exact .inl idle
  · exact .inr (.inl reset)
  · exact .inr (.inr ⟨w, rest, offered, performs_of_exec run⟩)

/-- Every step answers a next state (R180). -/
theorem step_next (s : State) : ∃ t, step s = .next t := by
  match offered : s.inbox with
  | [] => exact ⟨_, step_nil offered⟩
  | .reset :: rest => exact ⟨_, step_reset offered⟩
  | .cmd w :: rest =>
    rw [step_cmd offered]
    exact (exec_next _ _).imp fun t performed => performed.1

section startsMessage

@[simp] theorem startsMessage_reset : startsMessage .reset = true := (rfl)

theorem startsMessage_cmd_iff {w : CmdWord} : startsMessage (.cmd w) = true ↔ ∃ arg, decode w = .init arg := by
  cases command : decode w <;> simp [startsMessage, command]

end startsMessage

/-! ## The invariant -/

/-- The invariant speaks of BUF, LEN, PHASE and ERRCODE only. -/
theorem inv_congr {s t : State} (buf : t.buf = s.buf) (len : t.len = s.len) (phase : t.phase = s.phase)
    (errCode : t.errCode = s.errCode) : t.Inv ↔ s.Inv := by
  rw [State.Inv, State.Inv, buf, len, phase, errCode]

/-- A message that is open with no error has no more to keep than a canonical BUF and whole bytes (R36). -/
theorem inv_of_open {s : State} (wf : s.buf.wf = true) (whole : s.len.toNat % 8 = 0)
    (opened : s.phase = .absorbing) (noError : s.errCode = .noError) : s.Inv := by
  refine ⟨wf, whole, ?_, ?_⟩ <;> simp [opened, noError]

theorem errCode_of_inv {s : State} (inv : s.Inv) (noError : s.phase ≠ .error) : s.errCode = .noError := by
  obtain ⟨_, _, errCode, _⟩ := inv
  rw [errCode, if_neg noError]

/-- LEN is a multiple of 8, so below the largest length it has room for one more byte (R22). -/
theorem room_of_inv {s : State} (inv : s.Inv) (room : s.len ≠ maxLength) : s.len.toNat ≤ 2 ^ 64 - 16 := by
  obtain ⟨_, whole, _, _⟩ := inv
  have below := s.len.isLt
  have notFull : s.len.toNat ≠ 2 ^ 64 - 8 := fun full => room (BitVec.eq_of_toNat_eq full)
  omega

namespace Performs
variable {i : Instr} {s t : State}

theorem inv (performed : Performs s i t) (inv : s.Inv) : t.Inv := by
  have ⟨wf, whole, _, _⟩ := inv
  cases performed with
  | openMessage arg => exact inv_of_open wf rfl rfl rfl
  | refuse i unadmitted => exact (inv_congr rfl rfl rfl rfl).mpr inv
  | raiseInputError d opened full => exact ⟨wf, whole, rfl, fun _ => full⟩
  | absorbByte d opened room =>
    refine inv_of_open (wf_absorbByte s d wf) ?_ (by simpa using opened) ?_
    · rw [absorbByte_len_toNat d (room_of_inv inv room)]
      omega
    · rw [absorbByte_errCode, errCode_of_inv inv (by simp [opened])]
  | finalize arg opened =>
    have noError := errCode_of_inv inv (by simp [opened])
    refine ⟨?_, ?_, ?_, ?_⟩ <;> simp [wf_padAndProcess s wf, whole, noError]
  | read argHi k done => exact (inv_congr rfl rfl rfl rfl).mpr inv

/-- H is written by INIT, by the ABSORB that completes a block and by FINALIZE, and by nothing else (R21). -/
theorem h_cases (performed : Performs s i t) :
    t.h = s.h ∨ ((∃ arg, i = .init arg) ∧ t.h = initialHashValues) ∨
    ((∃ d, i = .absorb d) ∧ s.phase = .absorbing ∧ s.cnt = 63 ∧ t.h = hashBlock s.h (bufferBlock t.buf)) ∨
    ((∃ arg, i = .finalize arg) ∧ s.phase = .absorbing ∧ t.phase = .done ∧
      (s.cnt ≤ 55 → t.h = hashBlock s.h (bufferBlock t.buf)) ∧
      (56 ≤ s.cnt → ∃ first, t.h = hashBlock (hashBlock s.h first) (bufferBlock t.buf))) := by
  cases performed with
  | openMessage arg => exact .inr (.inl ⟨⟨arg, rfl⟩, rfl⟩)
  | absorbByte d opened room =>
    by_cases last : s.cnt = 63
    · refine .inr (.inr (.inl ⟨⟨d, rfl⟩, opened, last, ?_⟩))
      rw [absorbByte_h, if_pos last, absorbByte_buf]
    · exact .inl (by rw [absorbByte_h, if_neg last])
  | finalize arg opened =>
    refine .inr (.inr (.inr ⟨⟨arg, rfl⟩, opened, rfl, fun one => ?_, fun two => ?_⟩))
    · simp only [respond_h, respond_buf, setPhase_h, setPhase_buf, padAndProcess_one s one]
    · simp only [respond_h, respond_buf, setPhase_h, setPhase_buf, padAndProcess_two s two]
      exact ⟨_, rfl⟩
  | refuse i unadmitted => exact .inl rfl
  | raiseInputError d opened full => exact .inl rfl
  | read argHi k done => exact .inl rfl

/-- LEN is written by INIT and by a performed ABSORB, and by nothing else (R22). -/
theorem len_cases (performed : Performs s i t) :
    t.len = s.len ∨ ((∃ arg, i = .init arg) ∧ t.len = 0) ∨
    (∃ d, i = .absorb d ∧ s.phase = .absorbing ∧ s.len ≠ maxLength ∧ t = s.absorbByte d) := by
  cases performed with
  | openMessage arg => exact .inr (.inl ⟨⟨arg, rfl⟩, rfl⟩)
  | absorbByte d opened room => exact .inr (.inr ⟨d, rfl, opened, room, rfl⟩)
  | finalize arg opened => exact .inl (by simp)
  | refuse i unadmitted => exact .inl rfl
  | raiseInputError d opened full => exact .inl rfl
  | read argHi k done => exact .inl rfl

/-- Every command answers, and with data 0 unless it is a READ in DONE (R62, R172). -/
theorem resp_cases (performed : Performs s i t) :
    (∃ ok, t.resp = some ⟨ok, 0⟩) ∨
    (s.phase = .done ∧ ∃ argHi k, i = .read argHi k ∧ t.resp = some ⟨true, s.digestWord k⟩) := by
  cases performed with
  | absorbByte d opened room => exact .inl ⟨true, absorbByte_resp s d⟩
  | read argHi k done => exact .inr ⟨done, argHi, k, rfl, rfl⟩
  | openMessage arg => exact .inl ⟨true, rfl⟩
  | finalize arg opened => exact .inl ⟨true, rfl⟩
  | refuse i unadmitted => exact .inl ⟨false, rfl⟩
  | raiseInputError d opened full => exact .inl ⟨false, rfl⟩

/-- A command keeps ERRCODE, clears it or sets it to `InputError` (R27). -/
theorem errCode_cases (performed : Performs s i t) :
    t.errCode = s.errCode ∨ t.errCode = .noError ∨ t.errCode = .inputError := by
  cases performed with
  | openMessage arg => exact .inr (.inl rfl)
  | raiseInputError d opened full => exact .inr (.inr rfl)
  | absorbByte d opened room => exact .inl (absorbByte_errCode s d)
  | finalize arg opened => exact .inl (padAndProcess_errCode s)
  | refuse i unadmitted => exact .inl rfl
  | read argHi k done => exact .inl rfl

end Performs

/-! ## Buffer bytes that carry no meaning -/

/-- CNT after one more byte; LEN + 8 may wrap, since 2^64 is a multiple of 512 (R23, R163). -/
theorem absorbByte_cnt_mod (s : State) (d : Byte) : (s.absorbByte d).cnt = (s.cnt + 1) % 64 := by
  rw [cnt_eq, cnt_eq, absorbByte_len, len_add_eight]
  omega

namespace State.AgreeWhereMeaningful
variable {s s' : State}

theorem cnt_same (agree : s.AgreeWhereMeaningful s') : s.cnt = s'.cnt := cnt_congr agree.len_eq

theorem digestWord_eq (agree : s.AgreeWhereMeaningful s') (k : BitVec 3) : s.digestWord k = s'.digestWord k := by
  simp only [State.digestWord, agree.h_eq]

/-- States that agree still do after the same answer, or after none. -/
theorem setResp (agree : s.AgreeWhereMeaningful s') (resp : Option Response) :
    { s with resp := resp }.AgreeWhereMeaningful { s' with resp := resp } where
  h_eq := agree.h_eq
  len_eq := agree.len_eq
  phase_eq := agree.phase_eq
  errCode_eq := agree.errCode_eq
  inbox_eq := agree.inbox_eq
  resp_eq := rfl
  buf_eq := agree.buf_eq

/-- Nor does taking the next input make a difference. -/
theorem setInbox (agree : s.AgreeWhereMeaningful s') (rest : List HostInput) :
    { s with inbox := rest }.AgreeWhereMeaningful { s' with inbox := rest } where
  h_eq := agree.h_eq
  len_eq := agree.len_eq
  phase_eq := agree.phase_eq
  errCode_eq := agree.errCode_eq
  inbox_eq := rfl
  resp_eq := agree.resp_eq
  buf_eq := agree.buf_eq

/-- A state with no byte absorbed has no buffer byte that carries meaning. -/
theorem openMessage (agree : s.AgreeWhereMeaningful s') : s.openMessage.AgreeWhereMeaningful s'.openMessage where
  h_eq := rfl
  len_eq := rfl
  phase_eq := rfl
  errCode_eq := rfl
  inbox_eq := agree.inbox_eq
  resp_eq := agree.resp_eq
  buf_eq := fun _ _ below => by
    rw [cnt_eq, openMessage_len] at below
    exact absurd below (Nat.not_lt_zero _)

theorem raiseInputError (agree : s.AgreeWhereMeaningful s') :
    s.raiseInputError.AgreeWhereMeaningful s'.raiseInputError where
  h_eq := agree.h_eq
  len_eq := agree.len_eq
  phase_eq := rfl
  errCode_eq := rfl
  inbox_eq := agree.inbox_eq
  resp_eq := rfl
  buf_eq := fun opened => absurd opened (by simp)

/-- The bytes below CNT and the new byte at CNT are the same (R163). -/
theorem read_absorbByte_eq (agree : s.AgreeWhereMeaningful s') (opened : s.phase = .absorbing) (d : Byte) {a : Nat}
    (upTo : a ≤ s.cnt) : (s.absorbByte d).buf.read a = (s'.absorbByte d).buf.read a := by
  rw [read_absorbByte, read_absorbByte, ← agree.cnt_same]
  split_ifs with last
  · rfl
  · exact agree.buf_eq opened a (by omega)

theorem absorbByte (agree : s.AgreeWhereMeaningful s') (opened : s.phase = .absorbing) (d : Byte) :
    (s.absorbByte d).AgreeWhereMeaningful (s'.absorbByte d) where
  h_eq := by
    rw [absorbByte_h, absorbByte_h, ← agree.cnt_same, ← agree.h_eq]
    split_ifs with last
    · have block := bufferBlock_congr fun i below =>
        agree.read_absorbByte_eq opened d (show i ≤ s.cnt by omega)
      rw [absorbByte_buf, absorbByte_buf, ← agree.cnt_same] at block
      exact congrArg (hashBlock s.h) block
    · rfl
  len_eq := by rw [absorbByte_len, absorbByte_len, agree.len_eq]
  phase_eq := by rw [absorbByte_phase, absorbByte_phase, agree.phase_eq]
  errCode_eq := by rw [absorbByte_errCode, absorbByte_errCode, agree.errCode_eq]
  inbox_eq := by rw [absorbByte_inbox, absorbByte_inbox, agree.inbox_eq]
  resp_eq := by rw [absorbByte_resp, absorbByte_resp]
  buf_eq := fun _ a below => by
    rw [absorbByte_cnt_mod] at below
    exact agree.read_absorbByte_eq opened d (by omega)

/-- FINALIZE overwrites every byte at CNT and above before it processes the buffer (R167). -/
theorem padAndProcess_h_eq (agree : s.AgreeWhereMeaningful s') (opened : s.phase = .absorbing) :
    s.padAndProcess.h = s'.padAndProcess.h := by
  have kept : bufferBytes s.buf s.cnt = bufferBytes s'.buf s'.cnt := by
    rw [← agree.cnt_same]
    exact bufferBytes_congr (agree.buf_eq opened)
  rcases Nat.lt_or_ge 55 s.cnt with two | one
  · rw [padAndProcess_h_two two, padAndProcess_h_two (agree.cnt_same ▸ two), bufferBytes_padAndProcess_two two,
      bufferBytes_padAndProcess_two (agree.cnt_same ▸ two), kept, agree.h_eq, agree.len_eq, agree.cnt_same]
  · rw [padAndProcess_h_one one, padAndProcess_h_one (agree.cnt_same ▸ one), bufferBytes_padAndProcess_one one,
      bufferBytes_padAndProcess_one (agree.cnt_same ▸ one), kept, agree.h_eq, agree.len_eq, agree.cnt_same]

theorem finalize (agree : s.AgreeWhereMeaningful s') (opened : s.phase = .absorbing) :
    ((s.padAndProcess.setPhase .done).respond true 0).AgreeWhereMeaningful
      ((s'.padAndProcess.setPhase .done).respond true 0) where
  h_eq := by
    rw [respond_h, respond_h, setPhase_h, setPhase_h]
    exact agree.padAndProcess_h_eq opened
  len_eq := by simp [agree.len_eq]
  phase_eq := by simp
  errCode_eq := by simp [agree.errCode_eq]
  inbox_eq := by simp [agree.inbox_eq]
  resp_eq := by simp
  buf_eq := fun opened => absurd opened (by simp)

theorem takeReset (agree : s.AgreeWhereMeaningful s') : s.takeReset.AgreeWhereMeaningful s'.takeReset where
  h_eq := rfl
  len_eq := rfl
  phase_eq := rfl
  errCode_eq := rfl
  inbox_eq := agree.inbox_eq
  resp_eq := rfl
  buf_eq := fun _ _ _ => rfl

/-- States that agree have the same outcome of a command, and their next states agree. -/
theorem performs {i : Instr} {t : State} (agree : s.AgreeWhereMeaningful s') (performed : Performs s i t) :
    ∃ t', Performs s' i t' ∧ t.AgreeWhereMeaningful t' := by
  have phase := agree.phase_eq
  have len := agree.len_eq
  cases performed with
  | refuse i unadmitted => exact ⟨_, .refuse i (phase ▸ unadmitted), agree.setResp _⟩
  | openMessage arg => exact ⟨_, .openMessage arg, agree.openMessage.setResp _⟩
  | raiseInputError d opened full =>
    exact ⟨_, .raiseInputError d (phase ▸ opened) (len ▸ full), agree.raiseInputError⟩
  | absorbByte d opened room =>
    exact ⟨_, .absorbByte d (phase ▸ opened) (len ▸ room), agree.absorbByte opened d⟩
  | finalize arg opened => exact ⟨_, .finalize arg (phase ▸ opened), agree.finalize opened⟩
  | read argHi k done =>
    refine ⟨_, .read argHi k (phase ▸ done), ?_⟩
    rw [← agree.digestWord_eq k]
    exact agree.setResp _

end State.AgreeWhereMeaningful

end Sys2Proof.Machine

open Sys2Proof Sys2Proof.Machine

/-- Settles O22, by the input of the step and the outcome of its command. -/
theorem everyStepKeepsTheInvariant : Obligations.EveryStepKeepsTheInvariant := by
  intro s t inv stepped
  rcases step_performs_cases stepped with ⟨_, rfl⟩ | ⟨rest, _, rfl⟩ | ⟨w, rest, _, performed⟩
  · exact (inv_congr rfl rfl rfl rfl).mpr inv
  · exact inv_of_open rfl rfl rfl rfl
  · exact performed.inv ((inv_congr rfl rfl rfl rfl).mpr inv)

/-- Settles O27, by the input of the step: the other state takes the same one and has the same outcome. -/
theorem unwrittenBufferBytesNeverMatter : Obligations.UnwrittenBufferBytesNeverMatter := by
  intro s s' t agree stepped
  have inbox := agree.inbox_eq
  rcases step_performs_cases stepped with ⟨nothing, rfl⟩ | ⟨rest, offered, rfl⟩ | ⟨w, rest, offered, performed⟩
  · exact ⟨_, step_nil (inbox ▸ nothing), agree.setResp none⟩
  · exact ⟨_, step_reset (inbox ▸ offered), (agree.setInbox rest).takeReset⟩
  · obtain ⟨t', performed', agree'⟩ := (agree.setInbox rest).performs performed
    exact ⟨t', (step_cmd (inbox ▸ offered)).trans performed'.exec_eq, agree'⟩

/-- Settles O10. -/
theorem everyStepAnswersNext : Obligations.EveryStepAnswersNext := step_next

/-- Settles O24, by the input of the step and what wrote H. -/
theorem hashStateIsWrittenOnlyByItsWriters : Obligations.HashStateIsWrittenOnlyByItsWriters := by
  intro s t stepped changed
  rcases step_performs_cases stepped with ⟨_, rfl⟩ | ⟨rest, offered, rfl⟩ | ⟨w, rest, offered, performed⟩
  · exact absurd rfl changed
  · exact ⟨.reset, rest, offered, .inl ⟨rfl, rfl⟩⟩
  · refine ⟨.cmd w, rest, offered, ?_⟩
    rcases performed.h_cases with kept | ⟨init, h⟩ | ⟨⟨d, absorb⟩, opened, last, h⟩ | ⟨⟨arg, finalize⟩, writes⟩
    · exact absurd kept changed
    · exact .inl ⟨startsMessage_cmd_iff.mpr init, h⟩
    · exact .inr (.inl ⟨w, d, rfl, absorb, opened, last, h⟩)
    · exact .inr (.inr ⟨w, arg, rfl, finalize, writes⟩)

/-- Settles O25: LEN is a multiple of 8, so an ABSORB that does not raise InputError has room for its byte. -/
theorem lengthNeverWraps : Obligations.LengthNeverWraps := by
  intro s t inv stepped
  rcases step_performs_cases stepped with ⟨_, rfl⟩ | ⟨rest, offered, rfl⟩ | ⟨w, rest, offered, performed⟩
  · exact .inl rfl
  · exact .inr (.inl ⟨.reset, rest, offered, rfl, rfl⟩)
  · rcases performed.len_cases with kept | ⟨init, len⟩ | ⟨d, absorb, opened, notFull, rfl⟩
    · exact .inl (congrArg BitVec.toNat kept)
    · exact .inr (.inl ⟨.cmd w, rest, offered, startsMessage_cmd_iff.mpr init, congrArg BitVec.toNat len⟩)
    · have room : s.len.toNat ≤ 2 ^ 64 - 16 := room_of_inv inv notFull
      have grown : ({ s with inbox := rest }.absorbByte d).len.toNat = s.len.toNat + 8 :=
        absorbByte_len_toNat d room
      exact .inr (.inr ⟨w, d, rest, offered, absorb, opened, grown, by omega⟩)

/-- Settles O26: the data of every other response is 0. -/
theorem onlyDigestWordsAreSurfaced : Obligations.OnlyDigestWordsAreSurfaced := by
  intro s t r stepped answered nonzero
  rcases step_performs_cases stepped with ⟨_, rfl⟩ | ⟨rest, _, rfl⟩ | ⟨w, rest, offered, performed⟩
  · cases answered
  · cases answered
  · rcases performed.resp_cases with ⟨ok, resp⟩ | ⟨done, argHi, k, read, resp⟩ <;> cases resp.symm.trans answered
    · exact absurd rfl nonzero
    · exact ⟨done, w, rest, argHi, k, offered, read, rfl⟩

end

section
/-! SUPPORT. Runs in a PHASE that has closed its message (60_exceptions.md R193, 70_reset_and_hazards.md R221). -/

namespace Sys2Proof.Machine

/-- A response that surfaces nothing: none at all, or a refusal's (R62, R196). -/
def SurfacesNothing (resp : Option Response) : Prop := resp = none ∨ resp = some ⟨false, 0⟩

/-- In a closed PHASE a command other than INIT is a refused one, or a READ in DONE: either way it only answers. -/
theorem Performs.respond_of_closed {i : Instr} {s t : State} (performed : Performs s i t)
    (closed : s.phase ≠ .absorbing) (notInit : ∀ arg, i ≠ .init arg) :
    ∃ resp, t = { s with resp := resp } ∧ (s.phase = .error → SurfacesNothing resp) := by
  cases performed with
  | refuse i unadmitted => exact ⟨_, rfl, fun _ => .inr rfl⟩
  | openMessage arg => exact absurd rfl (notInit arg)
  | raiseInputError d opened full => exact absurd opened closed
  | absorbByte d opened room => exact absurd opened closed
  | finalize arg opened => exact absurd opened closed
  | read argHi k done => exact ⟨_, rfl, fun failed => absurd (done.symm.trans failed) (by decide)⟩

/-- In a closed PHASE a step with no new message takes its input away, answers and changes nothing else. -/
theorem step_of_closed {s : State} (closed : s.phase ≠ .absorbing)
    (noNewMessage : ∀ input ∈ s.inbox.take 1, startsMessage input = false) :
    ∃ resp, step s = .next { s with inbox := s.inbox.drop 1, resp := resp } ∧
      (s.phase = .error → SurfacesNothing resp) := by
  obtain ⟨t, stepped⟩ := step_next s
  rcases step_performs_cases stepped with ⟨nothing, rfl⟩ | ⟨rest, offered, rfl⟩ | ⟨w, rest, offered, performed⟩
  · refine ⟨none, ?_, fun _ => .inl rfl⟩
    rw [stepped, nothing, List.drop_nil, ← nothing]
    rfl
  · have noReset := noNewMessage .reset (by simp [offered])
    cases noReset
  · have notStart := noNewMessage (.cmd w) (by simp [offered])
    have notInit : ∀ arg, decode w ≠ .init arg := fun arg init => by
      rw [startsMessage_cmd_iff.mpr ⟨arg, init⟩] at notStart
      cases notStart
    obtain ⟨resp, rfl, surfaces⟩ := performed.respond_of_closed closed notInit
    exact ⟨resp, by rw [stepped, offered]; rfl, surfaces⟩

/-- So does a run: after n steps n inputs are gone. -/
theorem runSteps_of_closed {s : State} (closed : s.phase ≠ .absorbing) (n : Nat)
    (noNewMessage : ∀ input ∈ s.inbox.take n, startsMessage input = false) :
    ∃ resp, runSteps n s = .next { s with inbox := s.inbox.drop n, resp := resp } ∧
      (s.phase = .error → 0 < n → SurfacesNothing resp) := by
  induction n with
  | zero => exact ⟨s.resp, rfl, fun _ positive => absurd positive (lt_irrefl 0)⟩
  | succ n ih =>
    obtain ⟨resp, ran, _⟩ := ih fun input among =>
      noNewMessage input (List.take_subset_take_left _ (Nat.le_succ n) among)
    have next : ∀ input ∈ (s.inbox.drop n).take 1, startsMessage input = false := fun input among =>
      noNewMessage input (by rw [List.take_add]; exact List.mem_append_right _ among)
    obtain ⟨resp', stepped, surfaces⟩ :=
      step_of_closed (s := { s with inbox := s.inbox.drop n, resp := resp }) closed next
    refine ⟨resp', ?_, fun failed _ => surfaces failed⟩
    rw [runSteps_succ_last n ran, stepped, List.drop_drop]

end Sys2Proof.Machine

open Sys2Proof Sys2Proof.Machine

/-- Settles O28: the state after the run is the state before it but for `inbox` and `resp`. -/
theorem closedPhaseLastsUntilANewMessage : Obligations.ClosedPhaseLastsUntilANewMessage := by
  intro n s closed noNewMessage
  obtain ⟨resp, ran, surfaces⟩ := runSteps_of_closed closed n noNewMessage
  exact ⟨_, ran, rfl, rfl, rfl, rfl, rfl, rfl, surfaces⟩

end

section
/-! SUPPORT. The state after RESET and INIT (10_state.md R37, 70_reset_and_hazards.md R215), STATUS in each PHASE
(R29), and the error an ABSORB raises (45_commands.md R164). -/

namespace Sys2Proof.Machine

/-- The fields that RESET and INIT have in common (R161, R179, R215). -/
structure State.IsFresh (s : State) : Prop where
  h_eq : s.h = initialHashValues
  len_eq : s.len = 0
  phase_eq : s.phase = .absorbing
  errCode_eq : s.errCode = .noError

theorem reset_isFresh : State.reset.IsFresh := ⟨rfl, rfl, rfl, rfl⟩

/-- A step on a RESET or an INIT leaves the fresh fields. -/
theorem step_isFresh {s t : State} {input : HostInput} {rest : List HostInput} (offered : s.inbox = input :: rest)
    (starts : startsMessage input = true) (stepped : step s = .next t) : t.IsFresh := by
  cases input with
  | reset =>
    rw [step_reset offered] at stepped
    cases stepped
    exact ⟨rfl, rfl, rfl, rfl⟩
  | cmd w =>
    obtain ⟨arg, init⟩ := startsMessage_cmd_iff.mp starts
    rw [step_cmd offered, init, exec_init] at stepped
    cases stepped
    exact ⟨rfl, rfl, rfl, rfl⟩

namespace State.IsFresh
variable {s t : State}

theorem status_eq (fresh : s.IsFresh) : s.status = 0b0000 := status_of_open fresh.phase_eq fresh.errCode_eq

/-- The fresh fields have one value each. -/
theorem fields_eq (fresh : s.IsFresh) (fresh' : t.IsFresh) :
    (s.h, s.len, s.phase, s.errCode, s.status) = (t.h, t.len, t.phase, t.errCode, t.status) := by
  rw [fresh.h_eq, fresh.len_eq, fresh.phase_eq, fresh.errCode_eq, fresh.status_eq, fresh'.h_eq, fresh'.len_eq,
    fresh'.phase_eq, fresh'.errCode_eq, fresh'.status_eq]

/-- A fresh state stands for the empty message (R177). -/
theorem holds_nil (fresh : s.IsFresh) : s.Holds [] where
  phase_eq := fresh.phase_eq
  len_eq := by
    rw [fresh.len_eq]
    rfl
  buf_eq := fun i below => absurd below (Nat.not_lt_zero i)
  h_eq := fresh.h_eq

end State.IsFresh

/-- STATUS once `InputError` was raised (R29, R193). -/
theorem status_of_inputError {s : State} (failed : s.phase = .error) (inputError : s.errCode = .inputError) :
    s.status = 0b0110 := by
  rw [State.status, State.errorFlag, State.digestValid, failed, inputError]
  rfl

/-- STATUS with a digest and no error (R29). -/
theorem status_of_done {s : State} (done : s.phase = .done) (noError : s.errCode = .noError) :
    s.status = 0b0001 := by
  rw [State.status, State.errorFlag, State.digestValid, done, noError]
  rfl

theorem exec_absorb_of_full {s : State} (d : Byte) (opened : s.phase = .absorbing)
    (full : s.len.toNat = 2 ^ 64 - 8) : exec (.absorb d) s = .next s.raiseInputError :=
  (Performs.raiseInputError d opened (BitVec.eq_of_toNat_eq full)).exec_eq

end Sys2Proof.Machine

open Sys2Proof Sys2Proof.Machine

/-- Settles O49: RESET and INIT leave a fresh state. -/
theorem newMessageIsEmpty : Obligations.NewMessageIsEmpty :=
  fun _ _ _ _ offered starts stepped => (step_isFresh offered starts stepped).holds_nil

/-- Settles O20, by PHASE, which fixes ERRCODE. -/
theorem statusTakesOneValueForEachPhase : Obligations.StatusTakesOneValueForEachPhase := by
  intro s inv
  cases phase : s.phase with
  | absorbing => exact status_of_open phase (errCode_of_inv inv (by simp [phase]))
  | done => exact status_of_done phase (errCode_of_inv inv (by simp [phase]))
  | error =>
    obtain ⟨_, _, errCode, _⟩ := inv
    exact status_of_inputError phase (by rw [errCode, if_pos phase])

/-- Settles O8: the step of a RESET is `takeReset`. -/
theorem resetStepOpensANewMessage : Obligations.ResetStepOpensANewMessage :=
  fun _ _ offered => ⟨_, step_reset offered, rfl, rfl, rfl, rfl, rfl, rfl⟩

/-- Settles O9: the step with no input is `idle`. -/
theorem idleStepHoldsTheState : Obligations.IdleStepHoldsTheState := fun _ nothing => step_nil nothing

/-- Settles O11: the reset state is fresh. -/
theorem resetValuesAreAsTabulated : Obligations.ResetValuesAreAsTabulated :=
  ⟨reset_h, reset_len, rfl, rfl, rfl, reset_isFresh.status_eq⟩

/-- Settles O13: both steps leave a fresh state, as reset is. -/
theorem initAndResetLeaveTheSameState : Obligations.InitAndResetLeaveTheSameState := by
  intro s t u w arg rest init steppedInit steppedReset
  have afterInit : t.IsFresh := step_isFresh rfl (startsMessage_cmd_iff.mpr ⟨arg, init⟩) steppedInit
  have afterReset : u.IsFresh := step_isFresh rfl startsMessage_reset steppedReset
  exact ⟨afterInit.fields_eq afterReset, afterReset.fields_eq reset_isFresh⟩

/-- Settles O15: at the largest length ABSORB raises `InputError`. -/
theorem absorbAtTheLargestLengthRaisesInputError : Obligations.AbsorbAtTheLargestLengthRaisesInputError :=
  fun d _ opened full => ⟨_, exec_absorb_of_full d opened full, rfl, status_of_inputError rfl rfl⟩

/-- Settles O21: the reset state is an open message with nothing absorbed. -/
theorem resetMeetsTheInvariant : Obligations.ResetMeetsTheInvariant := inv_of_open wf_nil rfl rfl rfl

end

section
/-! SUPPORT. `sha256_words` over bytes (44_compressor.md R146): the chain over the blocks of the byte form of the
padded message (40_padder.md R83), and that chain as the message's whole blocks followed by one or two last
blocks (45_commands.md R178). -/

namespace Sys2Proof.Machine

theorem length_paddedBytes (m : List Byte) : (paddedBytes m).length = 64 * ((m.length + 8) / 64 + 1) := by
  have bits := length_paddedBits_blocks m
  rw [paddedBits_eq_bitsOfBytes, length_bitsOfBytes] at bits
  omega

/-- The blocks that `parse` cuts from a padded message are those of its byte form (R83, R101). -/
theorem parse_paddedBits (m : List Byte) :
    parse (paddedBits m) = .ok ((List.range ((m.length + 8) / 64 + 1)).map (messageBlock (paddedBytes m))) := by
  have blocks := length_paddedBits_blocks m
  rw [parse_of_wholeBlocks (by rw [blocks, Nat.mul_mod_right]), blocks, Nat.mul_div_cancel_left _ (by decide),
    paddedBits_eq_bitsOfBytes]
  refine congrArg Except.ok (List.map_congr_left fun b among => parseBlock_bitsOfBytes ?_)
  rw [List.mem_range] at among
  rw [length_paddedBytes]
  omega

theorem sha256Words_of_fits {m : List Byte} (fits : 8 * m.length < 2 ^ 64) :
    sha256Words m = .ok (messageChain (paddedBytes m) ((m.length + 8) / 64 + 1)) := by
  simp only [sha256Words, pad_of_fits fits, parse_paddedBits, messageChain]

theorem sha256Words_of_overlong {m : List Byte} (overlong : 2 ^ 64 ≤ 8 * m.length) :
    sha256Words m = .error .inputError := by
  simp only [sha256Words, pad_of_overlong overlong]

/-- A block of a byte sequence is a block of what follows any whole number of blocks before it (R177). -/
theorem messageBlock_add (p : List Byte) (q j : Nat) :
    messageBlock p (q + j) = messageBlock (p.drop (64 * q)) j := by
  ext t lt
  simp only [messageBlock_get _ _ _ lt, List.getD_eq_getElem?_getD, List.getElem?_drop, Nat.mul_add,
    Nat.add_assoc]

theorem messageBlock_drop (p : List Byte) (q : Nat) : messageBlock p q = blockOfBytes (p.drop (64 * q)) :=
  messageBlock_add p q 0

theorem blockOfBytes_append {block : List Byte} (more : List Byte) (whole : block.length = 64) :
    blockOfBytes (block ++ more) = blockOfBytes block :=
  messageBlock_append block more 0 (by omega)

/-- The bytes of a message after its last whole block, which BUF holds while the message is open (R177). -/
def unprocessedBytes (m : List Byte) : List Byte := m.drop (64 * (m.length / 64))

theorem length_unprocessedBytes (m : List Byte) : (unprocessedBytes m).length = m.length % 64 := by
  rw [unprocessedBytes, List.length_drop]
  omega

/-- The padded message after the message's whole blocks (R83). -/
theorem drop_paddedBytes (m : List Byte) :
    (paddedBytes m).drop (64 * (m.length / 64)) =
      unprocessedBytes m ++ 0x80 :: List.replicate (padZeroBytes m.length) 0x00 ++ beBytes 8 (bitLength m) := by
  rw [paddedBytes, List.append_assoc, List.drop_append_of_le_length (by omega), unprocessedBytes,
    List.append_assoc]

/-- Padding changes nothing in the message's whole blocks. -/
theorem messageChain_paddedBytes (m : List Byte) :
    messageChain (paddedBytes m) (m.length / 64) = messageChain m (m.length / 64) := by
  rw [paddedBytes, List.append_assoc, messageChain_append _ _ _ (by omega)]

/-- With at most 55 bytes after the whole blocks the padding ends in the same block (R89, R167). -/
theorem sha256Words_of_oneLastBlock {m : List Byte} (fits : 8 * m.length < 2 ^ 64) (one : m.length % 64 ≤ 55) :
    sha256Words m = .ok (hashBlock (messageChain m (m.length / 64)) (blockOfBytes
      (unprocessedBytes m ++ 0x80 :: List.replicate (55 - m.length % 64) 0x00 ++ beBytes 8 (bitLength m)))) := by
  have blocks : (m.length + 8) / 64 + 1 = m.length / 64 + 1 := by omega
  have zeros : padZeroBytes m.length = 55 - m.length % 64 := by
    rw [padZeroBytes]
    omega
  rw [sha256Words_of_fits fits, blocks, messageChain_succ, messageChain_paddedBytes, messageBlock_drop,
    drop_paddedBytes, zeros]

/-- With at least 56 bytes there the padding needs a block more (R89, R167). -/
theorem sha256Words_of_twoLastBlocks {m : List Byte} (fits : 8 * m.length < 2 ^ 64) (two : 56 ≤ m.length % 64) :
    sha256Words m = .ok (hashBlock (hashBlock (messageChain m (m.length / 64))
      (blockOfBytes (unprocessedBytes m ++ 0x80 :: List.replicate (63 - m.length % 64) 0x00)))
      (blockOfBytes (List.replicate 56 0x00 ++ beBytes 8 (bitLength m)))) := by
  have blocks : (m.length + 8) / 64 + 1 = m.length / 64 + 1 + 1 := by omega
  have zeros : padZeroBytes m.length = (63 - m.length % 64) + 56 := by
    rw [padZeroBytes]
    omega
  have first : (unprocessedBytes m ++ 0x80 :: List.replicate (63 - m.length % 64) 0x00).length = 64 := by
    rw [List.length_append, length_unprocessedBytes, List.length_cons, List.length_replicate]
    omega
  have lastBlocks : (paddedBytes m).drop (64 * (m.length / 64)) =
      (unprocessedBytes m ++ 0x80 :: List.replicate (63 - m.length % 64) 0x00) ++
        (List.replicate 56 0x00 ++ beBytes 8 (bitLength m)) := by
    rw [drop_paddedBytes, zeros, ← List.replicate_append_replicate]
    simp only [List.append_assoc, List.cons_append]
  have second : (paddedBytes m).drop (64 * (m.length / 64 + 1)) =
      List.replicate 56 0x00 ++ beBytes 8 (bitLength m) := by
    rw [Nat.mul_add, ← List.drop_drop, lastBlocks, List.drop_left' first]
  rw [sha256Words_of_fits fits, blocks, messageChain_succ, messageChain_succ, messageChain_paddedBytes,
    messageBlock_drop, messageBlock_drop, lastBlocks, blockOfBytes_append _ first, second]

end Sys2Proof.Machine
end

section
/-! SUPPORT. The message a state stands for (45_commands.md R177) under ABSORB and FINALIZE. -/

namespace Sys2Proof.Machine

namespace State.Holds
variable {s : State} {m : List Byte}

theorem cnt_eq (holds : s.Holds m) : s.cnt = m.length % 64 := by
  rw [Machine.cnt_eq, holds.len_eq, bitLength, Nat.mul_div_cancel_left _ (by decide)]

/-- LEN is a 64-bit value, so the message it is the length of can be padded (R80). -/
theorem fits (holds : s.Holds m) : 8 * m.length < 2 ^ 64 := by
  rw [← bitLength, ← holds.len_eq]
  exact s.len.isLt

/-- A state stands for a message whatever it last answered and has still to take. -/
theorem congr {t : State} (holds : s.Holds m) (h : t.h = s.h) (len : t.len = s.len) (buf : t.buf = s.buf)
    (phase : t.phase = s.phase) : t.Holds m where
  phase_eq := phase.trans holds.phase_eq
  len_eq := len ▸ holds.len_eq
  buf_eq := buf ▸ holds.buf_eq
  h_eq := h.trans holds.h_eq

/-- BUF up to CNT and the new byte are the bytes of the longer message after the same whole blocks (R163). -/
theorem read_absorbByte (holds : s.Holds m) (d : Byte) {i : Nat} (upTo : i ≤ m.length % 64) :
    (s.absorbByte d).buf.read i = (m ++ [d]).getD (64 * (m.length / 64) + i) 0 := by
  rw [Machine.read_absorbByte, holds.cnt_eq]
  split_ifs with last
  · have position : 64 * (m.length / 64) + i = m.length := by omega
    rw [position, List.getD_eq_getElem?_getD, List.getElem?_concat_length, Option.getD_some]
  · rw [holds.buf_eq i (by omega), getD_append_of_lt [d] (by omega)]

/-- The ABSORB that completes a block processes the message's next whole block (R163, R177). -/
theorem absorbByte_h (holds : s.Holds m) (d : Byte) :
    (s.absorbByte d).h = messageChain (m ++ [d]) ((m.length + 1) / 64) := by
  have chain := messageChain_append m [d] (m.length / 64) (by omega)
  rw [Machine.absorbByte_h, holds.cnt_eq, holds.h_eq, ← chain]
  split_ifs with last
  · have blocks : (m.length + 1) / 64 = m.length / 64 + 1 := by omega
    have block : bufferBlock (s.absorbByte d).buf = messageBlock (m ++ [d]) (m.length / 64) := by
      ext t lt
      rw [bufferBlock_get _ _ lt, messageBlock_get _ _ _ lt, holds.read_absorbByte d (by omega),
        holds.read_absorbByte d (by omega), holds.read_absorbByte d (by omega),
        holds.read_absorbByte d (by omega)]
      simp only [Nat.add_assoc]
    rw [absorbByte_buf, holds.cnt_eq, last] at block
    rw [blocks, messageChain_succ, ← block, last]
  · rw [show (m.length + 1) / 64 = m.length / 64 by omega]

/-- A performed ABSORB appends its byte to the message (R177). -/
theorem absorbByte (holds : s.Holds m) (d : Byte) (room : m.length + 1 ≤ 2 ^ 61 - 1) :
    (s.absorbByte d).Holds (m ++ [d]) where
  phase_eq := by rw [absorbByte_phase, holds.phase_eq]
  len_eq := by
    have fits : s.len.toNat ≤ 2 ^ 64 - 16 := by
      rw [holds.len_eq, bitLength]
      omega
    rw [absorbByte_len_toNat d fits, holds.len_eq, bitLength, bitLength, List.length_append,
      List.length_singleton, Nat.mul_add]
  buf_eq := by
    intro i below
    rw [List.length_append, List.length_singleton] at below ⊢
    have blocks : (m.length + 1) / 64 = m.length / 64 := by omega
    rw [blocks, holds.read_absorbByte d (by omega)]
  h_eq := by rw [holds.absorbByte_h d, List.length_append, List.length_singleton]

theorem exec_absorb (holds : s.Holds m) (d : Byte) (room : m.length + 1 ≤ 2 ^ 61 - 1) :
    exec (.absorb d) s = .next (s.absorbByte d) := by
  refine exec_absorb_of_room d holds.phase_eq ?_
  rw [holds.len_eq, bitLength]
  omega

theorem bufferBytes_eq (holds : s.Holds m) : bufferBytes s.buf s.cnt = unprocessedBytes m := by
  refine List.ext_getElem ?_ fun i inBuffer inMessage => ?_
  · rw [length_bufferBytes, holds.cnt_eq, length_unprocessedBytes]
  · rw [length_bufferBytes, holds.cnt_eq] at inBuffer
    rw [← List.getD_eq_getElem _ 0, ← List.getD_eq_getElem _ 0, bufferBytes_getD _ (by rwa [holds.cnt_eq]),
      holds.buf_eq i inBuffer, unprocessedBytes, List.getD_eq_getElem?_getD, List.getD_eq_getElem?_getD,
      List.getElem?_drop]

/-- The last blocks that FINALIZE makes in BUF are those of the padded message (R168, R178). -/
theorem sha256Words_eq (holds : s.Holds m) : sha256Words m = .ok s.padAndProcess.h := by
  have cnt := holds.cnt_eq
  rcases Nat.lt_or_ge 55 s.cnt with two | one
  · rw [sha256Words_of_twoLastBlocks holds.fits (cnt ▸ two), padAndProcess_h_two two,
      bufferBytes_padAndProcess_two two, holds.bufferBytes_eq, holds.h_eq, holds.len_eq, cnt, hashBlock, hashBlock]
  · rw [sha256Words_of_oneLastBlock holds.fits (cnt ▸ one), padAndProcess_h_one one,
      bufferBytes_padAndProcess_one one, holds.bufferBytes_eq, holds.h_eq, holds.len_eq, cnt, hashBlock]

/-- READ is refused while a message is open, and leaves the message (R172). -/
theorem exec_read (holds : s.Holds m) (argHi : BitVec 5) (k : BitVec 3) :
    exec (.read argHi k) s = .next s.refuse := by
  refine (Performs.refuse (.read argHi k) fun done => ?_).exec_eq
  exact absurd (holds.phase_eq.symm.trans done) (by decide)

end State.Holds

end Sys2Proof.Machine

open Sys2Proof Sys2Proof.Machine

/-- Settles O50: ABSORB is performed with the bytes it leaves, and READ is refused. -/
theorem absorbExtendsTheHeldMessage : Obligations.AbsorbExtendsTheHeldMessage := by
  intro s m holds
  refine ⟨fun d room => ⟨_, holds.exec_absorb d room, absorbByte_resp s d, holds.absorbByte d room⟩,
    fun argHi k => ⟨_, holds.exec_read argHi k, ?_⟩⟩
  exact holds.congr (refuse_h s) (refuse_len s) (refuse_buf s) (refuse_phase s)

/-- Settles O51: the blocks of the padded buffer are the last blocks of the padded message. -/
theorem finalizeHashesTheHeldMessage : Obligations.FinalizeHashesTheHeldMessage := by
  intro s m arg holds
  refine ⟨_, exec_finalize_of_open arg holds.phase_eq, respond_resp _ _ _, ?_, ?_⟩
  · rw [respond_phase, setPhase_phase]
  · rw [respond_h, setPhase_h, holds.sha256Words_eq]

end

section
/-! SUPPORT. `rotr`, `shr` and the schedule's window (43_message_scheduler.md R128), a round in the source's order
(44_compressor.md R141), and `MemRead` of what `MemWrite` wrote (20_memory.md R44). -/

namespace Sys2Proof.Machine

theorem shiftWindow_get_of_lt (w : Block) {t : Nat} (below : t < 15) : (shiftWindow w)[t] = w[t + 1] := by
  simp only [shiftWindow, Vector.getElem_ofFn, dif_pos below]

theorem shiftWindow_get_last (w : Block) : (shiftWindow w)[15] = w[0] + s0 w[1] + w[9] + s1 w[14] := by
  simp only [shiftWindow, Vector.getElem_ofFn]
  rfl

/-- The window after n shifts holds the schedule from word n on, for its new word is the recurrence's (R128). -/
theorem windowAfter_get (m : Block) {n : Nat} (shifts : n ≤ 48) {t : Nat} (inWindow : t < 16) :
    (windowAfter m n)[t] = (expand m)[n + t] := by
  induction n generalizing t with
  | zero => simp only [windowAfter, Nat.zero_add, expand_get_of_lt m inWindow]
  | succ n ih =>
    rw [windowAfter]
    rcases Nat.lt_or_ge t 15 with below | last
    · rw [shiftWindow_get_of_lt _ below, ih (by omega) (by omega)]
      congr 1
      omega
    · obtain rfl : t = 15 := by omega
      have recurrence := (scheduleFollowsTheRecurrence m).2 (n + 16) (by omega)
      rw [shiftWindow_get_last, ih (by omega), ih (by omega), ih (by omega), ih (by omega)]
      exact recurrence.symm

/-- The bytes of a value at their places make up what of the value fits in them (R43, R44). -/
theorem sum_beByte (n v : Nat) :
    ((List.range n).map fun i => (beByte n v i).toNat * 2 ^ (8 * (n - 1 - i))).sum = v % 2 ^ (8 * n) := by
  induction n with
  | zero => rw [Nat.mul_zero, pow_zero, Nat.mod_one]; rfl
  | succ n ih =>
    have lowBytes : ∀ i, (beByte (n + 1) v (i + 1)).toNat * 2 ^ (8 * (n + 1 - 1 - (i + 1))) =
        (beByte n v i).toNat * 2 ^ (8 * (n - 1 - i)) := by
      intro i
      rw [beByte, beByte, show n + 1 - 1 - (i + 1) = n - 1 - i by omega]
    rw [List.range_succ_eq_map, List.map_cons, List.map_map, List.sum_cons]
    simp only [Function.comp_def, Nat.succ_eq_add_one, lowBytes]
    rw [ih, beByte, BitVec.toNat_ofNat, Nat.add_sub_cancel, Nat.sub_zero, Nat.mul_succ, pow_add,
      Nat.mod_mul, Nat.add_comm, Nat.mul_comm (_ % _)]

/-- `MemRead` gives back what `MemWrite` wrote, as far as it fits (R44). -/
theorem memRead_memWrite (buf : Memory) (addr n v : Nat) :
    memRead (memWrite buf addr n v) addr n = v % 2 ^ (8 * n) := by
  rw [memRead, ← sum_beByte]
  refine congrArg List.sum (List.map_congr_left fun i inRange => ?_)
  rw [List.mem_range] at inRange
  rw [read_memWrite, if_pos ⟨Nat.le_add_right _ _, by omega⟩, Nat.add_sub_cancel_left]

end Sys2Proof.Machine

open Sys2Proof Sys2Proof.Machine

/-- Settles O30: rotation and shift at each bit. -/
theorem rotationAndShiftMoveBits : Obligations.RotationAndShiftMoveBits :=
  fun x n amount i inWord => ⟨getLsbD_rotr x n amount inWord, getLsbD_shr x n amount i⟩

/-- Settles O34, by induction on the number of shifts. -/
theorem scheduleWindowYieldsTheSameWords : Obligations.ScheduleWindowYieldsTheSameWords :=
  fun m _ shifts _ inWindow => windowAfter_get m shifts inWindow

/-- Settles O35: no assignment reads a register that one before it has written. -/
theorem roundInOrderIsSimultaneous : Obligations.RoundInOrderIsSimultaneous := fun _ _ _ => rfl

/-- Settles O29: the value fits in its bytes, and bytes outside the range are kept. -/
theorem bufferReadsBackWhatWasWritten : Obligations.BufferReadsBackWhatWasWritten := by
  refine fun buf addr n v _ fits => ⟨by rw [memRead_memWrite, Nat.mod_eq_of_lt fits], fun a outside => ?_⟩
  rw [read_memWrite, if_neg (by omega)]

end

section
/-! SUPPORT. The tables as parts of roots (42_constants.md R111): in each row the integer part of the root and the
word of the table make up the integer root of the scaled prime. -/

namespace Sys2Proof.Machine

/-- The integer part of a root stands above the 32 bits of its fraction. -/
def joinRoot (whole : Nat) (fraction : Word) : Nat := whole * 2 ^ 32 + fraction.toNat

theorem joinRoot_mod (whole : Nat) (fraction : Word) : joinRoot whole fraction % 2 ^ 32 = fraction.toNat := by
  rw [joinRoot, Nat.mul_add_mod_self_right, Nat.mod_eq_of_lt fraction.isLt]

/-- The square roots of the first eight primes, with integer parts below 5. -/
theorem initialHashValues_squareRoot : ∀ k (inTable : k < 8), ∃ whole < 5,
    IsIntegerSquareRoot (derivationPrimes.getD k 0 * 2 ^ 64) (joinRoot whole initialHashValues[k]) := by
  decide +kernel

/-- The cube roots of the 64 primes, with integer parts below 7. -/
theorem derivedConstants_cubeRoot : ∀ row ∈ derivedConstants, ∃ whole < 7,
    IsIntegerCubeRoot (row.prime * 2 ^ 96) (joinRoot whole row.word) := by
  decide +kernel

theorem roundConstants_cubeRoot (j : Nat) (inTable : j < 64) : ∃ whole,
    IsIntegerCubeRoot (derivationPrimes.getD j 0 * 2 ^ 96) (joinRoot whole roundConstants[j]) := by
  rw [derivationPrimes_getD j inTable, roundConstants_getElem j inTable]
  obtain ⟨whole, _, root⟩ := derivedConstants_cubeRoot _ (List.getElem_mem _)
  exact ⟨whole, root⟩

theorem exists_nonneg_cubeRoot (p : Nat) : ∃ root : ℝ, 0 ≤ root ∧ root ^ 3 = p := by
  refine ⟨(p : ℝ) ^ ((3 : ℕ) : ℝ)⁻¹, by positivity, Real.rpow_inv_natCast_pow (Nat.cast_nonneg p) (by decide)⟩

/-- A real root whose scaled integer root is known has that fraction: scaling by 2^32 turns the bounds on the
powers into bounds on the root. -/
theorem floor_fract_root {n p whole : Nat} {fraction : Word} {root : ℝ} (nonneg : 0 ≤ root)
    (isRoot : root ^ n = p) (lower : joinRoot whole fraction ^ n ≤ p * (2 ^ 32) ^ n)
    (upper : p * (2 ^ 32) ^ n < (joinRoot whole fraction + 1) ^ n) :
    (fraction.toNat : ℤ) = ⌊Int.fract root * 2 ^ 32⌋ := by
  have nonzero : n ≠ 0 := by
    rintro rfl
    simp only [pow_zero, mul_one] at lower upper
    omega
  have scaled : (root * 2 ^ 32) ^ n = p * (2 ^ 32) ^ n := by rw [mul_pow, isRoot]
  have below : (whole * 2 ^ 32 + fraction.toNat : ℝ) ≤ root * 2 ^ 32 := by
    refine le_of_pow_le_pow_left₀ nonzero (by positivity) ?_
    rw [scaled]
    exact_mod_cast lower
  have above : root * 2 ^ 32 < (whole * 2 ^ 32 + fraction.toNat : ℝ) + 1 := by
    refine lt_of_pow_lt_pow_left₀ n (by positivity) ?_
    rw [scaled]
    exact_mod_cast upper
  have small : (fraction.toNat : ℝ) + 1 ≤ 2 ^ 32 := by exact_mod_cast fraction.isLt
  have nonnegFraction : (0 : ℝ) ≤ fraction.toNat := Nat.cast_nonneg _
  have integerPart : ⌊root⌋ = whole := by
    rw [Int.floor_eq_iff, Int.cast_natCast]
    constructor <;> linarith
  symm
  rw [Int.fract, integerPart, Int.floor_eq_iff, Int.cast_natCast, Int.cast_natCast]
  constructor <;> linarith

end Sys2Proof.Machine

open Sys2Proof Sys2Proof.Machine

/-- Settles O38: the integer root is the integer part joined to the word of the table. -/
theorem tablesFollowTheIntegerDerivation : Obligations.TablesFollowTheIntegerDerivation := by
  refine ⟨fun k inTable => ?_, fun j inTable => ?_⟩
  · obtain ⟨whole, _, root⟩ := initialHashValues_squareRoot k inTable
    exact ⟨_, root, (joinRoot_mod whole _).symm⟩
  · obtain ⟨whole, root⟩ := roundConstants_cubeRoot j inTable
    exact ⟨_, root, (joinRoot_mod whole _).symm⟩

/-- Settles O39: the real root lies between the integer root and the next number, both scaled. -/
theorem tablesAreFractionalPartsOfRoots : Obligations.TablesAreFractionalPartsOfRoots := by
  refine ⟨fun k inTable => ?_, fun j inTable => ?_⟩
  · obtain ⟨whole, _, lower, upper⟩ := initialHashValues_squareRoot k inTable
    exact floor_fract_root (Real.sqrt_nonneg _) (Real.sq_sqrt (Nat.cast_nonneg _)) lower upper
  · obtain ⟨whole, lower, upper⟩ := roundConstants_cubeRoot j inTable
    obtain ⟨root, nonneg, isRoot⟩ := exists_nonneg_cubeRoot (derivationPrimes.getD j 0)
    exact ⟨root, nonneg, isRoot, floor_fract_root nonneg isRoot lower upper⟩

end

section
/-! SUPPORT. The digits of a digest (44_compressor.md R150), the whole hash of a message that fits and of one that
does not (R151), and that `InternalInvariantViolation` has no producer (60_exceptions.md R194). -/

namespace Sys2Proof.Machine

/-- Where every part has n elements, element i of part k stands at `n * k + i`. -/
theorem getElem?_flatMap_of_length {α β : Type} {f : α → List β} {n : Nat} (length : ∀ a, (f a).length = n)
    (l : List α) (k : Nat) {i : Nat} (within : i < n) : (l.flatMap f)[n * k + i]? = l[k]?.bind fun a => (f a)[i]? := by
  induction l generalizing k with
  | nil => simp
  | cons a l ih =>
    rw [List.flatMap_cons]
    cases k with
    | zero => rw [List.getElem?_append_left (by rw [length]; omega)]; simp
    | succ k =>
      rw [List.getElem?_append_right (by rw [length, Nat.mul_succ]; omega), length, Nat.mul_succ,
        show n * k + n + i - n = n * k + i by omega, ih, List.getElem?_cons_succ]

@[simp] theorem length_hexOfWord (w : Word) : (hexOfWord w).length = 8 := by
  rw [hexOfWord, List.length_map, List.length_range]

theorem hexOfWord_getElem? (w : Word) {i : Nat} (within : i < 8) :
    (hexOfWord w)[i]? = some (hexDigit (w.extractLsb' (4 * (7 - i)) 4)) := by
  rw [hexOfWord, List.getElem?_map, List.getElem?_range within, Option.map_some]

theorem length_hexChars (st : HashWords) : (hexChars st).length = 64 := by
  simp [hexChars, List.length_flatMap]

/-- Digit i of word k (R150). -/
theorem hexChars_getElem? (st : HashWords) {k i : Nat} (inState : k < 8) (within : i < 8) :
    (hexChars st)[8 * k + i]? = some (hexDigit (st[k].extractLsb' (4 * (7 - i)) 4)) := by
  rw [hexChars, getElem?_flatMap_of_length length_hexOfWord _ _ within]
  simp [inState, hexOfWord_getElem? _ within]

/-- No two values have one digit (R69). -/
theorem hexDigit_injective : ∀ v w : BitVec 4, hexDigit v = hexDigit w → v = w := by decide

/-- Every bit of a word stands in one of its eight digits. -/
theorem eq_of_digits_eq {w w' : Word}
    (same : ∀ i < 8, w.extractLsb' (4 * (7 - i)) 4 = w'.extractLsb' (4 * (7 - i)) 4) : w = w' := by
  refine BitVec.eq_of_getLsbD_eq fun j inWord => ?_
  have digit := congrArg (·.getLsbD (j % 4)) (same (7 - j / 4) (by omega))
  simpa [BitVec.getLsbD_extractLsb', Nat.mod_lt, show 4 * (7 - (7 - j / 4)) + j % 4 = j by omega] using digit

theorem hexChars_injective {st st' : HashWords} (same : hexChars st = hexChars st') : st = st' := by
  ext k inState : 1
  refine eq_of_digits_eq fun i within => hexDigit_injective _ _ (Option.some.inj ?_)
  rw [← hexChars_getElem? st inState within, ← hexChars_getElem? st' inState within, same]

theorem parse_of_partialBlock {p : List Bool} (ill : p.length % 512 ≠ 0) :
    parse p = .error .internalInvariantViolation := by
  rw [parse, if_neg ill]

theorem sha256Words_ne_internal (m : List Byte) : sha256Words m ≠ .error .internalInvariantViolation := by
  rcases Nat.lt_or_ge (8 * m.length) (2 ^ 64) with fits | overlong
  · rw [sha256Words_of_fits fits]
    exact fun same => nomatch same
  · rw [sha256Words_of_overlong overlong]
    decide

/-- A step keeps ERRCODE, clears it or sets it to `InputError` (R27). -/
theorem step_errCode_cases {s t : State} (stepped : step s = .next t) :
    t.errCode = s.errCode ∨ t.errCode = .noError ∨ t.errCode = .inputError := by
  rcases step_performs_cases stepped with ⟨_, rfl⟩ | ⟨rest, _, rfl⟩ | ⟨w, rest, _, performed⟩
  · exact .inl rfl
  · exact .inr (.inl rfl)
  · exact performed.errCode_cases

end Sys2Proof.Machine

open Sys2Proof Sys2Proof.Machine

/-- Settles O47: each character is a digit at its place, and the digits of a word are its bits. -/
theorem hexRenderingHasSixtyFourDigits : Obligations.HexRenderingHasSixtyFourDigits :=
  ⟨fun st => ⟨length_hexChars st, fun _ _ => hexChars_getElem? st⟩, fun _ _ => hexChars_injective⟩

/-- Settles O48: below 2^61 bytes the bit length fits in 64 bits. -/
theorem sha256FailsExactlyOnOverlongMessages : Obligations.Sha256FailsExactlyOnOverlongMessages := by
  intro m
  refine ⟨fun fits => ?_, fun overlong => ?_⟩
  · simp only [sha256, sha256Words_of_fits (show 8 * m.length < 2 ^ 64 by omega)]
    exact ⟨_, rfl, by rw [String.length_ofList, length_hexChars]⟩
  · simp only [sha256, sha256Words_of_overlong (show 2 ^ 64 ≤ 8 * m.length by omega)]

/-- Settles O46: a padded message is whole blocks, and no command sets the code. -/
theorem internalInvariantIsNeverViolated : Obligations.InternalInvariantIsNeverViolated := by
  refine ⟨fun p ill => parse_of_partialBlock ill, sha256Words_ne_internal, fun s reason fault => ?_,
    fun s t unset stepped => ?_⟩
  · obtain ⟨t, next⟩ := step_next s
    cases next.symm.trans fault
  · rcases step_errCode_cases stepped with kept | cleared | raised
    · rwa [kept]
    · rw [cleared]
      decide
    · rw [raised]
      decide

end

section
/-! SUPPORT. The words of the pseudo-commands (30_encoding.md R61, R71). -/

namespace Sys2Proof.Machine

/-- The word of ABSORB d is `0x100 + d` (R61). -/
theorem absorbWord_ofNat {b : Nat} (isByte : b < 256) :
    absorbWord (BitVec.ofNat 8 b) = BitVec.ofNat 10 (0x100 + b) := by
  apply BitVec.eq_of_toNat_eq
  rw [absorbWord, encode, toNat_opArg]
  simp only [BitVec.toNat_ofNat]
  omega

/-- The ABSORBs of an ASCII text (R71). -/
theorem absorbAll_charByte {text : List Char} (ascii : ∀ c ∈ text, c.toNat < 128) :
    absorbAll (text.map charByte) = text.map fun c => .cmd (BitVec.ofNat 10 (0x100 + c.toNat)) := by
  rw [absorbAll, List.map_map]
  refine List.map_congr_left fun c among => ?_
  rw [Function.comp_apply, charByte, absorbWord_ofNat ((ascii c among).trans (by decide))]

theorem absorbAll_replicate {b : Nat} (isByte : b < 256) (count : Nat) :
    absorbAll (List.replicate count (BitVec.ofNat 8 b)) =
      List.replicate count (.cmd (BitVec.ofNat 10 (0x100 + b))) := by
  rw [absorbAll, List.map_replicate, absorbWord_ofNat isByte]

theorem all_wfChar {text : List Char} (ascii : ∀ c ∈ text, c.toNat < 128) : text.all wfChar = true :=
  List.all_eq_true.mpr fun c among => decide_eq_true (ascii c among)

theorem assemble_of_illFormed {line : AsmLine} (ill : line.wf = false) : assemble line = none :=
  if_neg (by rw [ill]; decide)

end Sys2Proof.Machine

open Sys2Proof Sys2Proof.Machine

/-- Settles O54: the words of the commands that each pseudo-command stands for. -/
theorem pseudoCommandsExpandAsListed : Obligations.PseudoCommandsExpandAsListed := by
  refine ⟨fun text ascii => ?hash, ?digest, fun text ascii => ?absorbs, fun byte count isByte => ?absorbN,
    fun line ill => assemble_of_illFormed ill⟩
  case hash =>
    simp only [assemble, AsmLine.wf, all_wfChar ascii, hashProgram, absorbAll_charByte ascii, if_pos]
    rfl
  case digest => decide
  case absorbs => simp only [assemble, AsmLine.wf, all_wfChar ascii, absorbAll_charByte ascii, if_pos]
  case absorbN =>
    simp only [assemble, AsmLine.wf, decide_eq_true isByte, absorbAll_replicate isByte, if_pos]

end

section
/-! SUPPORT. Runs in which every step answers ok = 1, and the runs of the host protocol for one message
(45_commands.md R178, R179). -/

namespace Sys2Proof.Machine

@[simp] theorem absorbAll_cons (d : Byte) (m : List Byte) :
    absorbAll (d :: m) = .cmd (absorbWord d) :: absorbAll m := (rfl)

theorem absorbAll_append (m m' : List Byte) : absorbAll (m ++ m') = absorbAll m ++ absorbAll m' :=
  List.map_append

theorem hashProgram_append (m : List Byte) (rest : List HostInput) :
    hashProgram m ++ rest = .cmd initWord :: (absorbAll m ++ .cmd finalizeWord :: rest) := by
  simp [hashProgram]

/-- A step on the word of a command is that command (R160). -/
theorem step_encode {s : State} {i : Instr} {rest : List HostInput} (offered : s.inbox = .cmd (encode i) :: rest) :
    step s = exec i { s with inbox := rest } := by
  rw [step_cmd offered, decode_encode]

section steps
variable {s : State} {m : List Byte} {rest : List HostInput}

/-- INIT is performed from every state and opens the empty message (R161, R177). -/
theorem step_initWord (offered : s.inbox = .cmd initWord :: rest) :
    ∃ t, step s = .next t ∧ t.resp = some ⟨true, 0⟩ ∧ t.Holds [] ∧ t.inbox = rest := by
  have stepped := (step_encode offered).trans (exec_init 0 _)
  have fresh := step_isFresh offered (startsMessage_cmd_iff.mpr ⟨0, decode_encode _⟩) stepped
  exact ⟨_, stepped, rfl, fresh.holds_nil, rfl⟩

/-- With room for it an ABSORB is performed and extends the message (R163, R177). -/
theorem step_absorbWord {d : Byte} (holds : s.Holds m) (room : m.length + 1 ≤ 2 ^ 61 - 1)
    (offered : s.inbox = .cmd (absorbWord d) :: rest) :
    ∃ t, step s = .next t ∧ t.resp = some ⟨true, 0⟩ ∧ t.Holds (m ++ [d]) ∧ t.inbox = rest := by
  have taken : { s with inbox := rest }.Holds m := holds.congr rfl rfl rfl rfl
  obtain ⟨t, performed, ok, holds'⟩ := (absorbExtendsTheHeldMessage _ m taken).1 d room
  exact ⟨t, (step_encode offered).trans performed, ok, holds', exec_inbox performed⟩

/-- FINALIZE is performed and leaves the hash of the message (R168, R178). -/
theorem step_finalizeWord (holds : s.Holds m) (offered : s.inbox = .cmd finalizeWord :: rest) :
    ∃ t, step s = .next t ∧ t.resp = some ⟨true, 0⟩ ∧ t.phase = .done ∧ t.inbox = rest ∧
      sha256Words m = .ok t.h := by
  have taken : { s with inbox := rest }.Holds m := holds.congr rfl rfl rfl rfl
  obtain ⟨t, performed, ok, done, digest⟩ := finalizeHashesTheHeldMessage _ m 0 taken
  exact ⟨t, (step_encode offered).trans performed, ok, done, exec_inbox performed, digest⟩

/-- At 2^61-1 bytes LEN is 2^64-8, and an ABSORB raises `InputError` (R164). -/
theorem step_absorbWord_of_full {d : Byte} (holds : s.Holds m) (full : m.length = 2 ^ 61 - 1)
    (offered : s.inbox = .cmd (absorbWord d) :: rest) :
    ∃ t, step s = .next t ∧ t.phase = .error ∧ t.errCode = .inputError ∧ t.resp = some ⟨false, 0⟩ := by
  have largest : s.len.toNat = 2 ^ 64 - 8 := by
    rw [holds.len_eq, bitLength]
    omega
  exact ⟨_, (step_encode offered).trans (exec_absorb_of_full d holds.phase_eq largest), rfl, rfl, rfl⟩

end steps

/-- From s to t in n steps, every one of which answers ok = 1 with data 0 (R62). -/
structure RunsOk (n : Nat) (s t : State) : Prop where
  run : runSteps n s = .next t
  answers : ∀ j, 0 < j → j ≤ n → ∃ u, runSteps j s = .next u ∧ u.resp = some ⟨true, 0⟩

namespace RunsOk
variable {n : Nat} {s t u : State}

theorem refl (s : State) : RunsOk 0 s s where
  run := runSteps_zero s
  answers := fun _ positive none => absurd positive none.not_gt

/-- A run goes on by one more step that answers. -/
theorem snoc (runs : RunsOk n s t) (stepped : step t = .next u) (ok : u.resp = some ⟨true, 0⟩) :
    RunsOk (n + 1) s u where
  run := (runSteps_succ_last n runs.run).trans stepped
  answers := by
    intro j positive upTo
    rcases Nat.of_le_succ upTo with before | rfl
    · exact runs.answers j positive before
    · exact ⟨u, (runSteps_succ_last n runs.run).trans stepped, ok⟩

/-- The ABSORBs of the bytes d are performed and extend the message by d (R177). -/
theorem absorbAll {m : List Byte} (d : List Byte) {rest : List HostInput} (runs : RunsOk n s t) (holds : t.Holds m)
    (fits : m.length + d.length ≤ 2 ^ 61 - 1) (offered : t.inbox = Machine.absorbAll d ++ rest) :
    ∃ u, RunsOk (n + d.length) s u ∧ u.Holds (m ++ d) ∧ u.inbox = rest := by
  induction d generalizing n m t with
  | nil => exact ⟨t, runs, by rwa [List.append_nil], offered⟩
  | cons b d ih =>
    rw [List.length_cons] at fits
    obtain ⟨u, stepped, ok, holds', offered'⟩ := step_absorbWord holds (by omega) offered
    rw [List.append_cons, List.length_cons, Nat.add_comm d.length, ← Nat.add_assoc]
    refine ih (runs.snoc stepped ok) holds' ?_ offered'
    rw [List.length_append, List.length_singleton]
    omega

/-- The ABSORBs of a whole message and FINALIZE leave its hash in H (R178). -/
theorem absorbAll_finalize {m : List Byte} {rest : List HostInput} (runs : RunsOk n s t) (holds : t.Holds [])
    (fits : m.length ≤ 2 ^ 61 - 1) (offered : t.inbox = Machine.absorbAll m ++ .cmd finalizeWord :: rest) :
    ∃ u, RunsOk (n + m.length + 1) s u ∧ u.phase = .done ∧ u.inbox = rest ∧ sha256Words m = .ok u.h := by
  obtain ⟨v, runs', holds', offered'⟩ := runs.absorbAll m holds (by rwa [List.length_nil, Nat.zero_add]) offered
  obtain ⟨u, stepped, ok, done, inbox, digest⟩ := step_finalizeWord holds' offered'
  exact ⟨u, runs'.snoc stepped ok, done, inbox, digest⟩

end RunsOk

/-- An element of a list with what stands before and after it. -/
theorem exists_split_at {α : Type} {l : List α} {k : Nat} (within : k < l.length) :
    ∃ before a after, l = before ++ a :: after ∧ before.length = k :=
  ⟨l.take k, l[k], l.drop (k + 1), by rw [List.cons_getElem_drop_succ, List.take_append_drop],
    List.length_take_of_le within.le⟩

end Sys2Proof.Machine

open Sys2Proof Sys2Proof.Machine

/-- Settles O52, by induction on the message: INIT or RESET opens the empty message, each ABSORB extends it, and
FINALIZE hashes what the state stands for. -/
theorem commandSequenceComputesSha256 : Obligations.CommandSequenceComputesSha256 := by
  refine ⟨fun s m rest fits offered => ?afterInit, fun s m rest fits offered => ?afterReset⟩
  case afterInit =>
    rw [hashProgram_append] at offered
    obtain ⟨u, stepped, ok, holds, offered'⟩ := step_initWord offered
    obtain ⟨t, runs, done, inbox, digest⟩ :=
      ((RunsOk.refl s).snoc stepped ok).absorbAll_finalize holds fits offered'
    rw [show 0 + 1 + m.length + 1 = m.length + 2 by omega] at runs
    exact ⟨t, t.h, runs.run, done, inbox, digest, rfl, runs.answers,
      fun argHi k => ⟨_, (readAnswersTheDigestWord argHi k t).1 done, rfl⟩⟩
  case afterReset =>
    have stepped := step_reset offered
    have holds := (step_isFresh offered startsMessage_reset stepped).holds_nil
    obtain ⟨t, runs, done, inbox, digest⟩ := (RunsOk.refl _).absorbAll_finalize holds fits rfl
    rw [Nat.zero_add] at runs
    exact ⟨t, (runSteps_succ _ stepped).trans runs.run, done, inbox, digest⟩

/-- Settles O53: INIT and the first 2^61-1 ABSORBs are performed, and the next raises `InputError`. -/
theorem overlongMessageEndsInError : Obligations.OverlongMessageEndsInError := by
  intro s m rest overlong offered
  obtain ⟨before, d, after, rfl, length⟩ := exists_split_at (k := 2 ^ 61 - 1) (l := m) (by omega)
  rw [hashProgram_append, absorbAll_append, absorbAll_cons, List.append_assoc, List.cons_append] at offered
  obtain ⟨u, stepped, ok, holds, offered'⟩ := step_initWord offered
  obtain ⟨v, runs, holds', next⟩ :=
    ((RunsOk.refl s).snoc stepped ok).absorbAll before holds (by rw [List.length_nil]; omega) offered'
  obtain ⟨t, raised, failed, inputError, refused⟩ := step_absorbWord_of_full holds' length next
  rw [length, show 0 + 1 + (2 ^ 61 - 1) = 2 ^ 61 by decide] at runs
  refine ⟨t, (runSteps_succ_last _ runs.run).trans raised, failed, inputError, refused, runs.answers, ?_⟩
  exact fun argHi k => ⟨_, (readAnswersTheDigestWord argHi k t).2 (by simp [failed]), rfl⟩

end
